-- ==== Sys2Proof/Word.lean ====
section
/-! DEFINITION. The word types of the block: bytes, 16-bit addresses and the 64-bit cycle count (00_scope.md R6, R7). -/

namespace Sys2Proof

/-- One byte: the width of A, X, Y, SP, FLAGS, of an opcode and of the bus data (R6). -/
abbrev Byte := BitVec 8

/-- A 16-bit address: the width of PC, of an effective address and of the bus address (R6).
Every sum of addresses is modulo 2^16 (the spec's decisions D1 and D2; log entry 2). -/
abbrev Addr := BitVec 16

/-- The 64-bit unsigned cycle count (R18). Its sums are modulo 2^64 (D4; log entry 3). -/
abbrev Cycles := BitVec 64

end Sys2Proof
end

