-- ==== Sys2Proof/Config.lean ====
section
/-! DEFINITION. What the platform fixes. The opcode table itself, the block's one configuration table (92_eei_decisions.md D21), is `descriptor` in Decode.lean. -/

namespace Sys2Proof

/-- Bytes behind the port of the default bus RAM64K (20_memory.md R41). -/
def Config.addressSpace : Nat := 65536

/-- What an address that the memory list does not name reads as. DESIGN CHOICE, unsafe, log entry 1: the spec
assumes no byte of MEM0 (R41). Every MEM0 is some memory list, whatever this byte is; it only decides the one
MEM0 of `State.reset`. -/
def Config.unlistedByte : Byte := 0x00#8

end Sys2Proof
end

