-- ==== Sys2Proof/Syntax.lean ====
section
/-! DEFINITION. The instructions as syntax, the five table entries by name, the addressing modes and the execute functions an entry can name (30_encoding.md R43 to R45). -/

namespace Sys2Proof

/-- The addressing modes of the resolver (41_addressing_modes.md R67 to R72). No table entry names `absoluteX`. -/
inductive Mode
  | none | immediate | zeroPage | absolute | zeroPageX | absoluteX
  deriving DecidableEq, Repr

/-- The execute functions of the table (30_encoding.md R45). -/
inductive Action
  /-- no state change (R74) -/
  | skip
  /-- `A <- MemRead(EA, 1)` (R75, R76) -/
  | loadA
  /-- `MemWrite(EA, 1, A)` (R77) -/
  | storeA
  /-- read EA, add 1 modulo 256, write EA (R78) -/
  | increment
  deriving DecidableEq, Repr

/-- The five entries of the dispatch table, by name (R45). -/
inductive Mnemonic
  | nop | ldaImm | ldaZp | staAbs | incZpx
  deriving DecidableEq, Repr

/-- An instruction descriptor (R8, R45). The entry's diagnostic-only name is its `Mnemonic`. -/
structure Descriptor where
  opcode : Byte
  baseCycles : Nat
  mode : Mode
  action : Action
  deriving DecidableEq, Repr

/-- An instruction with its operand field (R43, R51). The seven rows `(unknown)` of spec/opcode_table.json are one
constructor that carries the opcode byte: they are one behaviour, R58 (log entry 7). -/
inductive Instr
  /-- NOP, 0x00 (R74) -/
  | nop
  /-- LDA_IMM, 0x01 imm8 (R75) -/
  | ldaImm (imm8 : Byte)
  /-- LDA_ZP, 0x02 zp8 (R76) -/
  | ldaZp (zp8 : Byte)
  /-- STA_ABS, 0x03 abs16[7:0] abs16[15:8] (R77) -/
  | staAbs (abs16 : Addr)
  /-- INC_ZPX, 0x04 base8 (R78) -/
  | incZpx (base8 : Byte)
  /-- An opcode the table does not hold, 0x05 to 0xFF (R48, R58). -/
  | unknown (op : Byte)
  deriving DecidableEq, Repr

end Sys2Proof
end

