-- ==== Sys2Proof/WellFormed.lean ====
section
/-! DEFINITION. Which terms of `Instr` are instructions of the block. -/

namespace Sys2Proof

/-- Operand fields are in range by their types (30_encoding.md R51). The one check: `unknown` carries an opcode that
the table does not hold, 0x05 to 0xFF (R48). -/
def Instr.wf : Instr → Bool
  | .nop => true
  | .ldaImm _ => true
  | .ldaZp _ => true
  | .staAbs _ => true
  | .incZpx _ => true
  | .unknown op => decide (5 ≤ op.toNat)

end Sys2Proof
end

