-- ==== Sys2Proof/Decode.lean ====
section
/-! DEFINITION. The dispatch table, the decoder, total on any bytes, and the encoder (30_encoding.md). -/

namespace Sys2Proof

/-! ## Bytes of a 16-bit value (00_scope.md R7; 20_memory.md R28) -/

/-- `zext_16` of a byte (R7). -/
def zext16 (b : Byte) : Addr := BitVec.ofNat 16 b.toNat

/-- `hi:lo`, the concatenation of two bytes: `zext_16(hi) * 256 + zext_16(lo)` (R7). -/
def concat16 (hi lo : Byte) : Addr := BitVec.ofNat 16 (hi.toNat * 256 + lo.toNat)

/-- `bits[7:0]` of a 16-bit value (R7). -/
def lowByte (a : Addr) : Byte := BitVec.ofNat 8 a.toNat

/-- `bits[15:8]` of a 16-bit value. -/
def highByte (a : Addr) : Byte := BitVec.ofNat 8 (a.toNat / 256)

/-! ## The table and the decoder -/

/-- The table of R45, one line an entry: opcode, base cycle cost, mode, execute function. The one place that holds
these literals (92_eei_decisions.md D21; log entry 13). -/
def descriptor : Mnemonic → Descriptor
  | .nop => ⟨0x00#8, 2, .none, .skip⟩
  | .ldaImm => ⟨0x01#8, 2, .immediate, .loadA⟩
  | .ldaZp => ⟨0x02#8, 3, .zeroPage, .loadA⟩
  | .staAbs => ⟨0x03#8, 4, .absolute, .storeA⟩
  | .incZpx => ⟨0x04#8, 6, .zeroPageX, .increment⟩

/-- The cycles the fallback charges for an opcode the table does not hold (R58, R103). -/
def unknownOpcodeCycles : Nat := 2

/-- `TABLE[op]`: the entry of an opcode, or `none` for `absent` (R45, R57). -/
def table (op : Byte) : Option Mnemonic :=
  [Mnemonic.nop, .ldaImm, .ldaZp, .staAbs, .incZpx].find? fun m => (descriptor m).opcode == op

/-- The number of operand bytes a mode consumes (R66). -/
def Mode.operandBytes : Mode → Nat
  | .none => 0
  | .immediate => 1
  | .zeroPage => 1
  | .absolute => 2
  | .zeroPageX => 1
  | .absoluteX => 2

/-- The length in bytes of a table entry's instruction (R43). -/
def Mnemonic.length (m : Mnemonic) : Nat := 1 + (descriptor m).mode.operandBytes

/-- The length in bytes of the instruction an opcode starts; an unknown opcode is consumed as one byte (R43, R48). -/
def lengthOf (op : Byte) : Nat :=
  match table op with
  | none => 1
  | some m => m.length

/-- The decoder: the opcode byte alone selects the entry (R47), and `byteAt k`, the k-th byte of the instruction, is
asked for the operand bytes of that entry's format and for no other (R43, R44). Total: an opcode the table does not
hold is `unknown` (R48). -/
def decodeFrom (byteAt : Nat → Byte) : Instr :=
  match table (byteAt 0) with
  | none => .unknown (byteAt 0)
  | some .nop => .nop
  | some .ldaImm => .ldaImm (byteAt 1)
  | some .ldaZp => .ldaZp (byteAt 1)
  | some .staAbs => .staAbs (concat16 (byteAt 2) (byteAt 1))
  | some .incZpx => .incZpx (byteAt 1)

/-- Why a byte list is no whole instruction. (The machine itself never lacks a byte: it reads them from the bus.) -/
inductive DecodeError
  /-- the list is empty -/
  | noOpcode
  /-- the list ends before the operand bytes of its opcode -/
  | missingOperand (op : Byte)
  deriving DecidableEq, Repr

/-- Reads one instruction from the front of a byte list and gives the rest of the list. -/
def decode : List Byte → Except DecodeError (Instr × List Byte)
  | [] => .error .noOpcode
  | op :: rest =>
    if rest.length + 1 < lengthOf op then .error (.missingOperand op)
    else .ok (decodeFrom fun k => (op :: rest).getD k 0, (op :: rest).drop (lengthOf op))

/-! ## The encoder, and words in the opcode table's numbering -/

/-- The opcode byte of an instruction (R45). -/
def Instr.opcode : Instr → Byte
  | .nop => 0x00#8
  | .ldaImm _ => 0x01#8
  | .ldaZp _ => 0x02#8
  | .staAbs _ => 0x03#8
  | .incZpx _ => 0x04#8
  | .unknown op => op

/-- The bytes of an instruction at ascending addresses, the 16-bit operand low byte first (R28, R43, R51). -/
def encode : Instr → List Byte
  | .nop => [0x00#8]
  | .ldaImm imm8 => [0x01#8, imm8]
  | .ldaZp zp8 => [0x02#8, zp8]
  | .staAbs abs16 => [0x03#8, lowByte abs16, highByte abs16]
  | .incZpx base8 => [0x04#8, base8]
  | .unknown op => [op]

/-- The longest instruction's bytes out of a number whose low `nbits` bits are an instruction as
spec/opcode_table.json numbers them (bit 0 the least of the first byte); every higher bit is 0 (log entry 11). -/
def wordBytes (nbits w : Nat) : List Byte :=
  [0, 1, 2].map fun k => BitVec.ofNat 8 ((w % 2 ^ nbits) / 256 ^ k)

/-- What the decoder reads from an instruction of the opcode table's numbering. -/
def decodeTableWord (nbits w : Nat) : Option Instr :=
  match decode (wordBytes nbits w) with
  | .ok (i, _) => some i
  | .error _ => none

end Sys2Proof
end

