-- ==== Sys2Proof/Machine/State.lean ====
section
/-! DEFINITION. The state of the machine as plain data, the reasons a step can stop, and the state at construction (10_state.md; 20_memory.md R41; 60_exceptions.md R80; 70_reset_and_hazards.md R95). -/

namespace Sys2Proof.Machine

/-- The seven registers, "the CPU state" (R9). They do not alias and none is hardwired (R10). -/
structure Cpu where
  /-- accumulator (R11) -/
  a : Byte
  /-- index X (R12) -/
  x : Byte
  /-- index Y, used by nothing (R13) -/
  y : Byte
  /-- stack pointer, reserved: an opaque byte (R14) -/
  sp : Byte
  /-- flags, reserved: an opaque byte without fields (R15) -/
  flags : Byte
  /-- program counter: at a step boundary the address of the next opcode byte (R16) -/
  pc : Addr
  /-- cycle counter (R18) -/
  cycles : Cycles
  deriving DecidableEq, Repr

/-- The contents of RAM64K (R41): the bytes that differ from `Config.unlistedByte`, by rising address.
`Memory.wf` (Ops.lean) is that form. -/
abbrev Memory := List Host.Cell

/-- One event of the diagnostic output, with its two fields and no text (R80; log entry 8). -/
inductive Diagnostic
  | unknownOpcode (opcode : Byte) (fetchAddr : Addr)
  deriving DecidableEq, Repr

/-- The machine at a step boundary: the block's registers, the bus contents behind its port, and its diagnostic
output, oldest event first. -/
structure State where
  cpu : Cpu
  mem : Memory
  diag : List Diagnostic
  deriving DecidableEq, Repr

/-- Which bus operation an access is (R25). -/
inductive AccessKind
  | read | write
  deriving DecidableEq, Repr

/-- The one way a Step can end other than in a next state (R54). -/
inductive Fault
  /-- `BusFault(address, kind)`: a platform bus other than RAM64K faulted on an access, whose
  address and kind it names (R42; log entry 17). Raised by Engine.memRead and Engine.memWrite of Machine/Engine.lean
  alone; `step`, which runs on RAM64K, never raises it (R41). Safe past it, where nothing is
  claimed (D9); log entry 17 says when a claim that names the two fields is unsafe. -/
  | busFault (addr : Addr) (kind : AccessKind)
  deriving DecidableEq, Repr

/-- Instructions the model gives no meaning. -/
inductive Refusal
  /-- An instruction not modelled yet, by its mnemonic; raised by `exec`'s refused arms, of which there is none. Safe. -/
  | notModelled (mnemonic : String)
  deriving DecidableEq, Repr

/-- Every register at zero (R22). -/
def Cpu.zero : Cpu :=
  { a := 0x00#8, x := 0x00#8, y := 0x00#8, sp := 0x00#8, flags := 0x00#8, pc := 0x0000#16, cycles := 0#64 }

/-- Construction on the default bus with contents `mem0`, the launch parameter MEM0 (R41, R95): registers zero, no
diagnostic, the bus as it was given. -/
def State.construct (mem0 : Memory) : State := { cpu := Cpu.zero, mem := mem0, diag := [] }

/-- The machine right after reset, which is construction (R95, R96), on the memory that lists nothing. The register
values are the spec's (R22); that MEM0 is DESIGN CHOICE, unsafe, log entry 1. -/
def State.reset : State := State.construct []

end Sys2Proof.Machine
end

