-- ==== Sys2Proof/Machine/Ops.lean ====
section
/-! DEFINITION. The operations over memory, registers and the diagnostic output that every meaning is made of. -/

namespace Sys2Proof.Machine

/-! ## Memory: RAM64K (20_memory.md R41) -/

/-- The canonical form from an address on: rising addresses inside the 16-bit space, and no entry equal to what an
unlisted address reads as. -/
def Memory.wfFrom (lowest : Nat) : List Host.Cell → Bool
  | [] => true
  | (k, v) :: rest =>
    decide (lowest ≤ k) && decide (k < Config.addressSpace) && decide (v ≠ Config.unlistedByte)
      && Memory.wfFrom (k + 1) rest

/-- The canonical form of a memory. -/
def Memory.wf (m : Memory) : Bool := Memory.wfFrom 0 m

/-- The byte a cell list holds for a key. -/
def Memory.lookup (key : Nat) : List Host.Cell → Byte
  | [] => Config.unlistedByte
  | (k, v) :: rest => if k = key then v else Memory.lookup key rest

/-- `read(a)`: returns `M[a]` and has no side effect (R41). -/
def Memory.read (m : Memory) (a : Addr) : Byte := Memory.lookup a.toNat m

/-- Puts a cell at its place in a rising list. -/
def Memory.insertCell (key : Nat) (v : Byte) : List Host.Cell → List Host.Cell
  | [] => [(key, v)]
  | (k, w) :: rest => if key < k then (key, v) :: (k, w) :: rest else (k, w) :: Memory.insertCell key v rest

/-- `write(a, v)`: sets `M[a] <- v` (R41), keeping the canonical form. -/
def Memory.write (m : Memory) (a : Addr) (v : Byte) : Memory :=
  let others := m.filter fun c => c.1 != a.toNat
  if v = Config.unlistedByte then others else Memory.insertCell a.toNat v others

/-- Places bytes at ascending addresses modulo 2^16 (R29, R98; D1), the first at `a`. -/
def Memory.place (m : Memory) (a : Addr) : List Byte → Memory
  | [] => m
  | b :: rest => Memory.place (Memory.write m a b) (a + 1#16) rest

/-! ## Registers -/

/-- Advances PC by `n` modulo 2^16 (10_state.md R16; D1). -/
def Cpu.advancePc (c : Cpu) (n : Nat) : Cpu := { c with pc := c.pc + BitVec.ofNat 16 n }

/-- Adds `n` to CYCLES modulo 2^64 (R18, R61; D4). -/
def Cpu.charge (c : Cpu) (n : Nat) : Cpu := { c with cycles := c.cycles + BitVec.ofNat 64 n }

/-! ## The state -/

/-- Writes A whole (R11). -/
def State.setA (s : State) (v : Byte) : State := { s with cpu := { s.cpu with a := v } }

/-- `MemRead(a, 1)` on RAM64K. -/
def State.readByte (s : State) (a : Addr) : Byte := s.mem.read a

/-- `MemWrite(a, 1, v)` on RAM64K. -/
def State.writeByte (s : State) (a : Addr) (v : Byte) : State := { s with mem := s.mem.write a v }

/-- `emit UnknownOpcode(op, addr)`: appends one event (60_exceptions.md R80). -/
def State.emit (s : State) (op : Byte) (addr : Addr) : State :=
  { s with diag := s.diag ++ [.unknownOpcode op addr] }

/-- Ends an instruction of the table: PC moves past the whole instruction (R62, R73) and CYCLES rises by the entry's
base cost (R59, R61). -/
def State.complete (s : State) (m : Mnemonic) : State :=
  { s with cpu := (s.cpu.advancePc m.length).charge (descriptor m).baseCycles }

/-- The fallback for an opcode the table does not hold (R58): one event with the opcode and the fetch address, which
is PC at the step boundary, 2 cycles, and PC past the one byte. It stands where another machine takes an exception;
this block has no trap entry and no return (R79, R85, R86). -/
def State.unknownOpcode (s : State) (op : Byte) : State :=
  let t := s.emit op s.cpu.pc
  { t with cpu := (t.cpu.advancePc 1).charge unknownOpcodeCycles }

end Sys2Proof.Machine
end

