-- ==== Sys2Proof/Machine/Operands.lean ====
section
/-! DEFINITION. The effective address of every operand form (30_encoding.md R44; 41_addressing_modes.md). -/

namespace Sys2Proof.Machine

/-- None: the constant 0x0000, which no access uses (R67; D24). -/
def eaNone : Addr := 0x0000#16

/-- Immediate: the address of the operand byte itself (R68), `pc` being the address after the opcode. -/
def eaImmediate (pc : Addr) : Addr := pc

/-- ZeroPage: the operand byte, zero-extended (R69). -/
def eaZeroPage (zp8 : Byte) : Addr := zext16 zp8

/-- Absolute: byte2:byte1, the low byte first in memory (R28, R70). -/
def eaAbsolute (lo hi : Byte) : Addr := concat16 hi lo

/-- ZeroPageX: an 8-bit sum without a carry into the high byte, zero-extended (R71). -/
def eaZeroPageX (base8 x : Byte) : Addr := zext16 (base8 + x)

/-- AbsoluteX: a 16-bit sum modulo 2^16 (R72; D3). No decoded instruction uses it (D27; log entry 9). -/
def eaAbsoluteX (lo hi x : Byte) : Addr := eaAbsolute lo hi + zext16 x

end Sys2Proof.Machine
end

