-- ==== Sys2Proof/Machine/LoadStore.lean ====
section
/-! DEFINITION. The load and store family (43_load_store.md). Each meaning is the whole-Step effect on the state at the step boundary. -/

namespace Sys2Proof.Machine

/-- LDA_IMM: A takes the byte at EA = P + 1, which is the operand byte of the instruction read (R75; log entry 6). -/
def execLdaImm (imm8 : Byte) (s : State) : Host.Outcome State Fault Refusal :=
  .next ((s.setA imm8).complete .ldaImm)

/-- LDA_ZP: A takes the byte at the zero-page address (R76). -/
def execLdaZp (zp8 : Byte) (s : State) : Host.Outcome State Fault Refusal :=
  .next ((s.setA (s.readByte (eaZeroPage zp8))).complete .ldaZp)

/-- STA_ABS: the byte at the absolute address takes A (R77). -/
def execStaAbs (abs16 : Addr) (s : State) : Host.Outcome State Fault Refusal :=
  .next ((s.writeByte abs16 s.cpu.a).complete .staAbs)

end Sys2Proof.Machine
end

