-- ==== Sys2Proof/Machine/Nop.lean ====
section
/-! DEFINITION. The no-operation family and the unknown-opcode fallback (42_nop.md R74; 40_step_engine.md R58). Each meaning is the whole-Step effect on the state at the step boundary. -/

namespace Sys2Proof.Machine

/-- NOP: no state change but PC and CYCLES (R74; 90_conflicts.md C5). -/
def execNop (s : State) : Host.Outcome State Fault Refusal :=
  .next (s.complete .nop)

/-- An opcode of 0x05 to 0xFF: the fallback, which is no trap and always goes on (R48, R58). -/
def execUnknown (op : Byte) (s : State) : Host.Outcome State Fault Refusal :=
  .next (s.unknownOpcode op)

end Sys2Proof.Machine
end

