-- ==== Sys2Proof/Machine/ReadModifyWrite.lean ====
section
/-! DEFINITION. The read-modify-write family (44_read_modify_write.md). The meaning is the whole-Step effect on the state at the step boundary. -/

namespace Sys2Proof.Machine

/-- INC_ZPX: the byte at the X-indexed zero-page address takes itself plus 1 modulo 256, and no flag changes (R78). -/
def execIncZpx (base8 : Byte) (s : State) : Host.Outcome State Fault Refusal :=
  let ea := eaZeroPageX base8 s.cpu.x
  .next ((s.writeByte ea (s.readByte ea + 1#8)).complete .incZpx)

end Sys2Proof.Machine
end

