-- ==== Sys2Proof/Machine/Fetch.lean ====
section
/-! DEFINITION. Reading the next instruction from the bus at PC, and placing one there. -/

namespace Sys2Proof.Machine

/-- The k-th byte of the instruction at PC, at the fetch address plus k modulo 2^16 (20_memory.md R29; D1, D2). -/
def State.instrByte (s : State) (k : Nat) : Byte := s.readByte (s.cpu.pc + BitVec.ofNat 16 k)

/-- The instruction at PC, read from the bus when the Step runs (R39, R55, R57): the opcode byte, then the operand
bytes of its format, low address first (R31). -/
def State.fetch (s : State) : Instr := decodeFrom s.instrByte

/-- The host's store of an instruction's bytes at PC (70_reset_and_hazards.md R98), for `State.withFetchWord`. -/
def State.placeAtPc (s : State) (bytes : List Byte) : State := { s with mem := s.mem.place s.cpu.pc bytes }

end Sys2Proof.Machine
end

