-- ==== Sys2Proof/Machine/Step.lean ====
section
/-! DEFINITION. The one transition of the engine on the default bus (40_step_engine.md R53, R54). Machine/Engine.lean writes the same transition phase by phase over any bus. -/

namespace Sys2Proof.Machine

/-- One Step from one step boundary to the next: the instruction at PC, executed. PC is moved past the instruction
and CYCLES charged by the meaning, which is the spec's whole-Step effect. -/
def step (s : State) : Host.Outcome State Fault Refusal := exec s.fetch s

/-- `s` with an instruction of the opcode table's numbering stored at PC, where the next step fetches. It stands for
the host's load of a program through the bus (R98; log entry 11). -/
def State.withFetchWord (s : State) (nbits w : Nat) : State := s.placeAtPc (wordBytes nbits w)

end Sys2Proof.Machine
end

