-- ==== Sys2Proof/Machine/Assemble.lean ====
section
/-! DEFINITION. The spec's own notation for programs (30_encoding.md R51, R52; D18; log entry 15), as lines with numeric operands, and where its bytes are placed. It is the host's tool, not the block's. -/

namespace Sys2Proof.Machine

/-- One line of R51's notation. -/
inductive AsmLine
  | nop
  | ldaImm (n : Nat)
  | ldaZp (z : Nat)
  | staAbs (a : Nat)
  | incZpx (b : Nat)
  /-- `.byte n` -/
  | byte (n : Nat)
  /-- `.org a` -/
  | org (a : Nat)
  deriving DecidableEq, Repr

/-- The operand is in the range of R51's last column. -/
def AsmLine.inRange : AsmLine → Bool
  | .nop => true
  | .ldaImm n => decide (n < 256)
  | .ldaZp z => decide (z < 256)
  | .staAbs a => decide (a < 65536)
  | .incZpx b => decide (b < 256)
  | .byte n => decide (n < 256)
  | .org a => decide (a < 65536)

/-- The bytes an in-range line encodes as (R51). -/
def AsmLine.rawBytes : AsmLine → List Byte
  | .nop => encode .nop
  | .ldaImm n => encode (.ldaImm (BitVec.ofNat 8 n))
  | .ldaZp z => encode (.ldaZp (BitVec.ofNat 8 z))
  | .staAbs a => encode (.staAbs (BitVec.ofNat 16 a))
  | .incZpx b => encode (.incZpx (BitVec.ofNat 8 b))
  | .byte n => [BitVec.ofNat 8 n]
  | .org _ => []

/-- The line's bytes; an operand out of its range is refused, never truncated (R51). -/
def AsmLine.bytes (l : AsmLine) : Option (List Byte) := if l.inRange then some l.rawBytes else none

/-- Where the byte after the line goes: `.org a` sets the place, any other line moves past its bytes modulo 2^16. -/
def AsmLine.nextPlace (l : AsmLine) (at_ : Addr) : Addr :=
  match l with
  | .org a => BitVec.ofNat 16 a
  | _ => at_ + BitVec.ofNat 16 l.rawBytes.length

/-- Places a program's lines in memory from an address on; none if a line is refused. -/
def assemble (m : Memory) (at_ : Addr) : List AsmLine → Option Memory
  | [] => some m
  | l :: rest =>
    match l.bytes with
    | none => none
    | some bs => assemble (m.place at_ bs) (l.nextPlace at_) rest

end Sys2Proof.Machine
end

