-- ==== Sys2Proof/Machine/Engine.lean ====
section
/-! DEFINITION. The Step written phase by phase as 40_step_engine.md R54 lists it, over ANY platform bus (the parameter `Bus` of 92_eei_decisions.md D5), with faulting and recording buses. On RAM64K it is `step`: a statement of the obligations. -/

namespace Sys2Proof.Machine

/-! ## The bus port (20_memory.md R25) -/

/-- A platform bus: its two operations, each giving the bus state after it, or `none` where the bus faults on the
access (R25, R26, R33, R42; D5's bare BusFault). A parameter of the engine, never a part of `State`. -/
structure Bus (β : Type) where
  read : β → Addr → Option (Byte × β)
  write : β → Addr → Byte → Option β

/-- The default platform bus (R41): a read changes nothing, and no access faults. -/
def ram64k : Bus Memory where
  read m a := some (m.read a, m)
  write m a v := some (m.write a v)

/-- One bus access (R31). -/
inductive Access
  | read (addr : Addr)
  | write (addr : Addr) (value : Byte)
  deriving DecidableEq, Repr

def Access.addr : Access → Addr
  | .read a => a
  | .write a _ => a

def Access.kind : Access → AccessKind
  | .read _ => .read
  | .write _ _ => .write

/-- `B` with the accesses of `bad` faulting: "wrap, mirror, or fault" is the bus's concern (R26, R42). -/
def faultingBus {β : Type} (bad : Access → Bool) (B : Bus β) : Bus β where
  read b a := if bad (.read a) then none else B.read b a
  write b a v := if bad (.write a v) then none else B.write b a v

/-- `B` with every access noted, oldest first, beside the bus state. -/
def recordingBus {β : Type} (B : Bus β) : Bus (β × List Access) where
  read b a :=
    match B.read b.1 a with
    | some (v, b') => some (v, (b', b.2 ++ [.read a]))
    | none => none
  write b a v :=
    match B.write b.1 a v with
    | some b' => some (b', b.2 ++ [.write a v])
    | none => none

/-! ## The engine on a bus -/

/-- The block bound to a bus (R25, R95). -/
structure Engine (β : Type) where
  cpu : Cpu
  bus : β
  diag : List Diagnostic
  deriving DecidableEq, Repr

/-- Construction on a bus, which it neither reads nor writes (R95). -/
def Engine.construct {β : Type} (bus : β) : Engine β := { cpu := Cpu.zero, bus := bus, diag := [] }

/-- The machine's state as an engine on RAM64K. -/
def State.toEngine (s : State) : Engine Memory := { cpu := s.cpu, bus := s.mem, diag := s.diag }

/-- An engine on RAM64K as the machine's state. -/
def Engine.toState (e : Engine Memory) : State := { cpu := e.cpu, mem := e.bus, diag := e.diag }

/-- `MemRead(a, 1)` (R7). Where the bus faults, the Step ends in BusFault with the address and kind of this access:
the engine, not the bus, fills them in (R42, R79; DEDUCED, log entry 17). -/
def Engine.memRead {β : Type} (B : Bus β) (e : Engine β) (a : Addr) : Except Fault (Byte × Engine β) :=
  match B.read e.bus a with
  | some (v, b) => .ok (v, { e with bus := b })
  | none => .error (.busFault a .read)

/-- `MemWrite(a, 1, v)` (R7). A bus fault is reported as for a read (log entry 17). -/
def Engine.memWrite {β : Type} (B : Bus β) (e : Engine β) (a : Addr) (v : Byte) : Except Fault (Engine β) :=
  match B.write e.bus a v with
  | some b => .ok { e with bus := b }
  | none => .error (.busFault a .write)

/-- Advances PC modulo 2^16. -/
def Engine.advance {β : Type} (e : Engine β) (n : Nat) : Engine β := { e with cpu := e.cpu.advancePc n }

/-- Adds to CYCLES modulo 2^64: the account phase (R61). -/
def Engine.account {β : Type} (e : Engine β) (n : Nat) : Engine β := { e with cpu := e.cpu.charge n }

/-- Reads the operand byte at PC and moves past it. -/
def Engine.operandByte {β : Type} (B : Bus β) (e : Engine β) : Except Fault (Byte × Engine β) :=
  match e.memRead B e.cpu.pc with
  | .ok (v, e') => .ok (v, e'.advance 1)
  | .error f => .error f

/-- Reads the two address bytes at PC and PC + 1, the low one first, and moves past both (R28, R70; D7). -/
def Engine.operandPair {β : Type} (B : Bus β) (e : Engine β) : Except Fault (Byte × Byte × Engine β) :=
  match e.memRead B e.cpu.pc with
  | .error f => .error f
  | .ok (lo, e1) =>
    match e1.memRead B (e.cpu.pc + 1#16) with
    | .ok (hi, e2) => .ok (lo, hi, e2.advance 2)
    | .error f => .error f

/-- The addressing-mode resolver (41_addressing_modes.md R66): the effective address, with PC moved past the operand
bytes. On entry PC is the address after the opcode. `absoluteX` is reached by no table entry (R72; D27). -/
def resolve {β : Type} (B : Bus β) (m : Mode) (e : Engine β) : Except Fault (Addr × Engine β) :=
  match m with
  | .none => .ok (eaNone, e)
  | .immediate => .ok (eaImmediate e.cpu.pc, e.advance 1)
  | .zeroPage =>
    match e.operandByte B with
    | .ok (z, e') => .ok (eaZeroPage z, e')
    | .error f => .error f
  | .absolute =>
    match e.operandPair B with
    | .ok (lo, hi, e') => .ok (eaAbsolute lo hi, e')
    | .error f => .error f
  | .zeroPageX =>
    match e.operandByte B with
    | .ok (b, e') => .ok (eaZeroPageX b e.cpu.x, e')
    | .error f => .error f
  | .absoluteX =>
    match e.operandPair B with
    | .ok (lo, hi, e') => .ok (eaAbsoluteX lo hi e.cpu.x, e')
    | .error f => .error f

/-- The execute phase (R59, R60): the table entry's execute function on the effective address (R74 to R78). -/
def execute {β : Type} (B : Bus β) (act : Action) (ea : Addr) (e : Engine β) : Except Fault (Engine β) :=
  match act with
  | .skip => .ok e
  | .loadA =>
    match e.memRead B ea with
    | .ok (v, e') => .ok { e' with cpu := { e'.cpu with a := v } }
    | .error f => .error f
  | .storeA => e.memWrite B ea e.cpu.a
  | .increment =>
    match e.memRead B ea with
    | .ok (v, e') => e'.memWrite B ea (v + 1#8)
    | .error f => .error f

/-- The resolve, execute and account phases of a table entry, once the opcode is fetched (R59). -/
def runEntry {β : Type} (B : Bus β) (d : Descriptor) (e : Engine β) : Except Fault (Engine β) :=
  match resolve B d.mode e with
  | .error f => .error f
  | .ok (ea, e1) =>
    match execute B d.action ea e1 with
    | .ok e2 => .ok (e2.account d.baseCycles)
    | .error f => .error f

/-- The fallback, once the opcode `op` is fetched from `addr` (R58). -/
def runFallback {β : Type} (op : Byte) (addr : Addr) (e : Engine β) : Engine β :=
  { e.account unknownOpcodeCycles with diag := e.diag ++ [.unknownOpcode op addr] }

/-- One Step over a bus, in the order of R54. -/
def stepOn {β : Type} (B : Bus β) (e : Engine β) : Except Fault (Engine β) :=
  match e.memRead B e.cpu.pc with
  | .error f => .error f
  | .ok (op, e1) =>
    match table op with
    | none => .ok (runFallback op e.cpu.pc (e1.advance 1))
    | some m => runEntry B (descriptor m) (e1.advance 1)

/-- The accesses of one Step on RAM64K from state `s`, the table of R31 row by row. `P` is the fetch address. -/
def State.busAccesses (s : State) : List Access :=
  let P := s.cpu.pc
  match s.fetch with
  | .nop => [.read P]
  | .ldaImm _ => [.read P, .read (P + 1#16)]
  | .ldaZp z => [.read P, .read (P + 1#16), .read (eaZeroPage z)]
  | .staAbs ea => [.read P, .read (P + 1#16), .read (P + 2#16), .write ea s.cpu.a]
  | .incZpx b =>
    let ea := eaZeroPageX b s.cpu.x
    [.read P, .read (P + 1#16), .read ea, .write ea (s.readByte ea + 1#8)]
  | .unknown _ => [.read P]

end Sys2Proof.Machine
end

