-- ==== Sys2Proof/Machine/HostAccess.lean ====
section
/-! DEFINITION. What the host may do between two Steps (10_state.md R21; 70_reset_and_hazards.md R98, R101; log entry 10), and a session of Steps and host writes. -/

namespace Sys2Proof.Machine

/-- A host write at a step boundary: any register with any value of its width (R21), or a byte behind the bus (R37). -/
inductive HostWrite
  | a (v : Byte)
  | x (v : Byte)
  | y (v : Byte)
  | sp (v : Byte)
  | flags (v : Byte)
  | pc (v : Addr)
  | cycles (v : Cycles)
  | byte (addr : Addr) (v : Byte)
  deriving DecidableEq, Repr

/-- The state after a host write; the next Step reads the value written (R21, R101). A write of CYCLES may lower it
(D23). -/
def State.hostWrite (s : State) (w : HostWrite) : State :=
  match w with
  | .a v => { s with cpu := { s.cpu with a := v } }
  | .x v => { s with cpu := { s.cpu with x := v } }
  | .y v => { s with cpu := { s.cpu with y := v } }
  | .sp v => { s with cpu := { s.cpu with sp := v } }
  | .flags v => { s with cpu := { s.cpu with flags := v } }
  | .pc v => { s with cpu := { s.cpu with pc := v } }
  | .cycles v => { s with cpu := { s.cpu with cycles := v } }
  | .byte addr v => s.writeByte addr v

/-- What can happen to an instance: a call of Step, or a host write between two of them (R53, R83). -/
inductive Event
  | step
  | host (w : HostWrite)
  deriving DecidableEq, Repr

/-- The state after one event. -/
def State.apply (s : State) (ev : Event) : Host.Outcome State Fault Refusal :=
  match ev with
  | .step => step s
  | .host w => .next (s.hostWrite w)

/-- The state after a session of events, in order (R37), stopping at the first that gives no next state. -/
def State.session (s : State) : List Event → Host.Outcome State Fault Refusal
  | [] => .next s
  | ev :: rest =>
    match s.apply ev with
    | .next t => t.session rest
    | .fault f => .fault f
    | .refused r => .refused r

end Sys2Proof.Machine
end

