-- ==== Sys2Proof/Safety.lean ====
section
/-! DEFINITION. What counts as a safe run, and the relation between states that no Step can tell apart, in the terms the statements use. -/

namespace Sys2Proof.Machine

/-- The invariant of the model's data: memory in its canonical form. No rule of the spec can break it. -/
def State.Inv (s : State) : Prop := s.mem.wf = true

/-- No number of Steps from `s` on stops (40_step_engine.md R64). -/
def State.NeverStops (s : State) : Prop := ∀ k, ∃ t, core.run k s = .next t

/-- The two states agree on everything a Step reads: A, X, PC and every byte of the bus (R63). They may differ in Y,
SP, FLAGS, CYCLES and the diagnostic output. -/
def SameInputs (s t : State) : Prop :=
  s.cpu.a = t.cpu.a ∧ s.cpu.x = t.cpu.x ∧ s.cpu.pc = t.cpu.pc ∧ ∀ adr, s.mem.read adr = t.mem.read adr

end Sys2Proof.Machine
end

