-- ==== Sys2Proof/Certificates/Slice0/Obligations.lean ====
section
/-! DEFINITION. The statements for the provers, from the numbered rules of spec/. -/

open Sys2Proof Sys2Proof.Machine

/-! ## Encoding (30_encoding.md) -/

/-- Words written out from R43, R45 and R51 decode to the instructions they stand for; a list that ends inside an
instruction is rejected by name. -/
def Obligations.SpecWordsDecode : Prop :=
  decode [0x00#8] = .ok (.nop, []) ∧
  decode [0x01#8, 0x42#8] = .ok (.ldaImm 0x42#8, []) ∧
  decode [0x02#8, 0x80#8] = .ok (.ldaZp 0x80#8, []) ∧
  decode [0x03#8, 0x34#8, 0x12#8] = .ok (.staAbs 0x1234#16, []) ∧
  decode [0x04#8, 0x10#8, 0x00#8] = .ok (.incZpx 0x10#8, [0x00#8]) ∧
  decode [0xA9#8, 0x42#8] = .ok (.unknown 0xA9#8, [0x42#8]) ∧
  decode [0x03#8, 0x34#8] = .error (.missingOperand 0x03#8)

/-- R45: the dispatch table has exactly its five entries, each with its base cycles, mode and execute function, and
every other opcode is absent. In particular no entry names AbsoluteX. -/
def Obligations.DispatchTableHasFiveEntries : Prop :=
  (table 0x00#8 = some .nop ∧ descriptor .nop = ⟨0x00#8, 2, .none, .skip⟩) ∧
  (table 0x01#8 = some .ldaImm ∧ descriptor .ldaImm = ⟨0x01#8, 2, .immediate, .loadA⟩) ∧
  (table 0x02#8 = some .ldaZp ∧ descriptor .ldaZp = ⟨0x02#8, 3, .zeroPage, .loadA⟩) ∧
  (table 0x03#8 = some .staAbs ∧ descriptor .staAbs = ⟨0x03#8, 4, .absolute, .storeA⟩) ∧
  (table 0x04#8 = some .incZpx ∧ descriptor .incZpx = ⟨0x04#8, 6, .zeroPageX, .increment⟩) ∧
  (∀ op : Byte, 5 ≤ op.toNat → table op = none)

/-- R47, R48: the opcode byte alone selects the instruction and its length; of the bytes after it only the operand
bytes of that length matter; the opcodes 0x05 to 0xFF, and no others, are unknown. -/
def Obligations.OpcodeAloneSelectsInstruction : Prop :=
  ∀ f g : Nat → Byte,
    (decodeFrom f).opcode = f 0 ∧
    (encode (decodeFrom f)).length = lengthOf (f 0) ∧
    (5 ≤ (f 0).toNat ↔ decodeFrom f = .unknown (f 0)) ∧
    ((∀ k, k < lengthOf (f 0) → f k = g k) → decodeFrom f = decodeFrom g)

/-- R43, R45, R51: decoding the bytes of any well-formed instruction, whatever bytes follow, gives it back with every
operand bit, and the bytes that follow. -/
def Obligations.DecodeOfEncode : Prop :=
  ∀ (i : Instr) (rest : List Byte), i.wf = true → decode (encode i ++ rest) = .ok (i, rest)

/-- R43, R47: each byte sequence has one meaning: what decodes to an instruction begins with exactly that
instruction's bytes, and the instruction is well formed. -/
def Obligations.EncodeOfDecode : Prop :=
  ∀ (bytes : List Byte) (i : Instr) (rest : List Byte),
    decode bytes = .ok (i, rest) → i.wf = true ∧ encode i ++ rest = bytes

/-! ## A Step runs the decoded instruction (40_step_engine.md R53 to R59) -/

/-- When the bytes from PC on, addresses modulo 2^16 (log entry 2), are those of a well-formed instruction, the Step
is that instruction's meaning at this state; Step adds nothing around it. -/
def Obligations.StepRunsTheInstructionAtPc : Prop :=
  ∀ (s : State) (i : Instr), i.wf = true →
    (∀ (k : Nat) (h : k < (encode i).length),
      s.mem.read (s.cpu.pc + BitVec.ofNat 16 k) = (encode i)[k]) →
    s.fetch = i ∧ step s = exec i s

/-- An opcode-table word stored at PC is what the next Step runs; the store changes no register, no diagnostic and no
byte but the three from PC on (the host's load, log entry 11). -/
def Obligations.StoredTableWordIsWhatRuns : Prop :=
  ∀ (s : State) (nbits w : Nat) (i : Instr), decodeTableWord nbits w = some i →
    step (s.withFetchWord nbits w) = exec i (s.withFetchWord nbits w) ∧
    (s.withFetchWord nbits w).cpu = s.cpu ∧ (s.withFetchWord nbits w).diag = s.diag ∧
    ∀ adr : Addr, adr ≠ s.cpu.pc → adr ≠ s.cpu.pc + 1#16 → adr ≠ s.cpu.pc + 2#16 →
      (s.withFetchWord nbits w).mem.read adr = s.mem.read adr

/-! ## The instructions: result, completion and frame

PC and operand addresses wrap modulo 2^16 and CYCLES modulo 2^64: the spec's decisions D1, D2 and D4, log entries 2
and 3. -/

/-- R74: NOP changes PC and CYCLES and nothing else, and opcode 0x00 at PC runs it. -/
def Obligations.NopChangesPcAndCyclesOnly : Prop :=
  ∀ s : State,
    exec .nop s = .next { s with cpu := { s.cpu with pc := s.cpu.pc + 1#16, cycles := s.cpu.cycles + 2#64 } } ∧
    (s.mem.read s.cpu.pc = 0x00#8 → step s = exec .nop s)

/-- R75: LDA_IMM loads its operand byte into A; besides A, PC and CYCLES nothing changes, FLAGS included. -/
def Obligations.LdaImmLoadsItsOperand : Prop :=
  ∀ (s : State) (imm8 : Byte),
    exec (.ldaImm imm8) s = .next { s with cpu := { s.cpu with
      a := imm8, pc := s.cpu.pc + 2#16, cycles := s.cpu.cycles + 2#64 } } ∧
    (s.mem.read s.cpu.pc = 0x01#8 → s.mem.read (s.cpu.pc + 1#16) = imm8 → step s = exec (.ldaImm imm8) s)

/-- R76: LDA_ZP loads the byte at the zero-page address its operand names; besides A, PC and CYCLES nothing changes. -/
def Obligations.LdaZpLoadsFromZeroPage : Prop :=
  ∀ (s : State) (zp8 : Byte), (eaZeroPage zp8).toNat = zp8.toNat ∧
    exec (.ldaZp zp8) s = .next { s with cpu := { s.cpu with
      a := s.mem.read (eaZeroPage zp8), pc := s.cpu.pc + 2#16, cycles := s.cpu.cycles + 3#64 } } ∧
    (s.mem.read s.cpu.pc = 0x02#8 → s.mem.read (s.cpu.pc + 1#16) = zp8 → step s = exec (.ldaZp zp8) s)

/-- R77: STA_ABS stores A at its absolute address, whose low byte is the first operand byte; every other byte, A and
every other register but PC and CYCLES are unchanged. The address may be one of the instruction's own bytes. -/
def Obligations.StaAbsStoresAccumulator : Prop :=
  ∀ (s : State) (lo hi : Byte), (eaAbsolute lo hi).toNat = hi.toNat * 256 + lo.toNat ∧
    (∃ t, exec (.staAbs (eaAbsolute lo hi)) s = .next t ∧
      t.cpu = { s.cpu with pc := s.cpu.pc + 3#16, cycles := s.cpu.cycles + 4#64 } ∧ t.diag = s.diag ∧
      t.mem.read (eaAbsolute lo hi) = s.cpu.a ∧
      ∀ adr, adr ≠ eaAbsolute lo hi → t.mem.read adr = s.mem.read adr) ∧
    (s.mem.read s.cpu.pc = 0x03#8 → s.mem.read (s.cpu.pc + 1#16) = lo → s.mem.read (s.cpu.pc + 2#16) = hi →
      step s = exec (.staAbs (eaAbsolute lo hi)) s)

/-- R78, R71: INC_ZPX adds 1 modulo 256 to the byte at (base8 + X) mod 256; every other byte and every register but PC
and CYCLES are unchanged, FLAGS included. -/
def Obligations.IncZpxIncrementsOneByte : Prop :=
  ∀ (s : State) (base8 : Byte), (eaZeroPageX base8 s.cpu.x).toNat = (base8.toNat + s.cpu.x.toNat) % 256 ∧
    (∃ t, exec (.incZpx base8) s = .next t ∧
      t.cpu = { s.cpu with pc := s.cpu.pc + 2#16, cycles := s.cpu.cycles + 6#64 } ∧ t.diag = s.diag ∧
      (t.mem.read (eaZeroPageX base8 s.cpu.x)).toNat =
        ((s.mem.read (eaZeroPageX base8 s.cpu.x)).toNat + 1) % 256 ∧
      ∀ adr, adr ≠ eaZeroPageX base8 s.cpu.x → t.mem.read adr = s.mem.read adr) ∧
    (s.mem.read s.cpu.pc = 0x04#8 → s.mem.read (s.cpu.pc + 1#16) = base8 → step s = exec (.incZpx base8) s)

/-- R58: an unknown opcode, 0x05 to 0xFF, appends the event with the opcode and its fetch address, charges 2 cycles,
moves PC past the one byte, and changes nothing else. That exec of an ill-formed `unknown` term, with an opcode below
0x05, is the fallback too is the model's choice, log entry 14; no Step runs one. -/
def Obligations.UnknownOpcodeFallsBack : Prop :=
  ∀ (s : State) (op : Byte),
    exec (.unknown op) s = .next
      { cpu := { s.cpu with pc := s.cpu.pc + 1#16, cycles := s.cpu.cycles + 2#64 },
        mem := s.mem,
        diag := s.diag ++ [.unknownOpcode op s.cpu.pc] } ∧
    (5 ≤ op.toNat → s.mem.read s.cpu.pc = op → step s = exec (.unknown op) s)

/-! ## Whole-machine rules -/

/-- R11: only the two loads write A, each whole with the byte it loads; only STA_ABS reads A: with another value in A
every other Step does the same, and leaves that value in A unless it is a load; FLAGS never follows A. Which byte is
loaded is R75, R76 and R69; the operand address PC + 1 wraps modulo 2^16 (D1, D2; log entry 2). -/
def Obligations.OnlyLoadsWriteAccumulator : Prop :=
  ∀ s : State, ∃ t, step s = .next t ∧ t.cpu.flags = s.cpu.flags ∧
    (s.mem.read s.cpu.pc = 0x01#8 → t.cpu.a = s.mem.read (s.cpu.pc + 1#16)) ∧
    (s.mem.read s.cpu.pc = 0x02#8 → t.cpu.a = s.mem.read (eaZeroPage (s.mem.read (s.cpu.pc + 1#16)))) ∧
    (s.mem.read s.cpu.pc ≠ 0x01#8 → s.mem.read s.cpu.pc ≠ 0x02#8 → t.cpu.a = s.cpu.a) ∧
    (s.mem.read s.cpu.pc ≠ 0x03#8 → ∀ v : Byte, ∃ u, step (s.setA v) = .next u ∧
      u.mem = t.mem ∧ u.diag = t.diag ∧ u.cpu = { t.cpu with a := u.cpu.a } ∧
      u.cpu.a = if s.mem.read s.cpu.pc = 0x01#8 ∨ s.mem.read s.cpu.pc = 0x02#8 then t.cpu.a else v)

/-- R13, R14, R15 (SP and FLAGS as opaque bytes are the spec's decisions D17 and D16): no Step reads or writes Y, SP or
FLAGS: with any other values in them the Step gives the same next state but for those values, which are kept. -/
def Obligations.YSpAndFlagsAreNeverReadOrWritten : Prop :=
  ∀ (s : State) (y sp flags : Byte), ∃ t, step s = .next t ∧
    t.cpu.y = s.cpu.y ∧ t.cpu.sp = s.cpu.sp ∧ t.cpu.flags = s.cpu.flags ∧
    step { s with cpu := { s.cpu with y := y, sp := sp, flags := flags } } =
      .next { t with cpu := { t.cpu with y := y, sp := sp, flags := flags } }

/-- R62, R65: the next PC is the fetch address plus the length the opcode fixes, modulo 2^16 (log entry 2); X, which
no instruction writes (R12), is kept. -/
def Obligations.NextPcIsFetchAddressPlusLength : Prop :=
  ∀ s : State, ∃ t, step s = .next t ∧ t.cpu.x = s.cpu.x ∧
    (s.mem.read s.cpu.pc = 0x00#8 ∨ 5 ≤ (s.mem.read s.cpu.pc).toNat → t.cpu.pc = s.cpu.pc + 1#16) ∧
    (s.mem.read s.cpu.pc = 0x01#8 ∨ s.mem.read s.cpu.pc = 0x02#8 ∨ s.mem.read s.cpu.pc = 0x04#8 →
      t.cpu.pc = s.cpu.pc + 2#16) ∧
    (s.mem.read s.cpu.pc = 0x03#8 → t.cpu.pc = s.cpu.pc + 3#16)

/-- R103, R104: the cycles a Step adds are the table's, by the opcode alone, on the machine and on any bus on which the
Step completes, side effects included (stated where the 64-bit sum does not wrap, so that D4 is not used). -/
def Obligations.CyclesAddedDependOnOpcodeAlone : Prop :=
  (∀ s : State, s.cpu.cycles.toNat + 6 < 2 ^ 64 → ∃ t, step s = .next t ∧
    t.cpu.cycles.toNat = s.cpu.cycles.toNat +
      (if s.mem.read s.cpu.pc = 0x00#8 then 2
       else if s.mem.read s.cpu.pc = 0x01#8 then 2
       else if s.mem.read s.cpu.pc = 0x02#8 then 3
       else if s.mem.read s.cpu.pc = 0x03#8 then 4
       else if s.mem.read s.cpu.pc = 0x04#8 then 6
       else 2)) ∧
  (∀ (β : Type) (B : Bus β) (e e' : Engine β) (op : Byte) (b : β), e.cpu.cycles.toNat + 6 < 2 ^ 64 →
    B.read e.bus e.cpu.pc = some (op, b) → stepOn B e = .ok e' →
    e'.cpu.cycles.toNat = e.cpu.cycles.toNat +
      (if op = 0x00#8 then 2
       else if op = 0x01#8 then 2
       else if op = 0x02#8 then 3
       else if op = 0x03#8 then 4
       else if op = 0x04#8 then 6
       else 2))

/-- R80: a Step on an unknown opcode appends exactly one event, with that opcode and the PC before the advance, and
no other Step appends any. -/
def Obligations.OneDiagnosticPerUnknownOpcode : Prop :=
  ∀ s : State, ∃ t, step s = .next t ∧
    t.diag = if (s.mem.read s.cpu.pc).toNat < 5 then s.diag
      else s.diag ++ [.unknownOpcode (s.mem.read s.cpu.pc) s.cpu.pc]

/-- R64: no opcode and no state stops the engine: any number of Steps from any state completes. -/
def Obligations.EveryRunCompletes : Prop := ∀ s : State, s.NeverStops

/-- R24, R31, R71, R77: only STA_ABS can change a byte outside the zero page, and only STA_ABS and INC_ZPX a byte at
all. -/
def Obligations.OnlyStaAbsWritesOutsideZeroPage : Prop :=
  ∀ s : State, s.mem.read s.cpu.pc ≠ 0x03#8 → ∃ t, step s = .next t ∧
    (∀ adr : Addr, 256 ≤ adr.toNat → t.mem.read adr = s.mem.read adr) ∧
    (s.mem.read s.cpu.pc ≠ 0x04#8 → t.mem = s.mem)

/-- R100, R39: a store or an increment at the address of the next opcode is what the next Step fetches; both operand
addresses wrap modulo 2^16 (log entry 2). -/
def Obligations.WriteToNextOpcodeIsFetched : Prop :=
  ∀ s : State, ∃ t, step s = .next t ∧
    (s.mem.read s.cpu.pc = 0x03#8 →
      eaAbsolute (s.mem.read (s.cpu.pc + 1#16)) (s.mem.read (s.cpu.pc + 2#16)) = s.cpu.pc + 3#16 →
      t.fetch.opcode = s.cpu.a) ∧
    (s.mem.read s.cpu.pc = 0x04#8 →
      eaZeroPageX (s.mem.read (s.cpu.pc + 1#16)) s.cpu.x = s.cpu.pc + 2#16 →
      t.fetch.opcode = s.mem.read (s.cpu.pc + 2#16) + 1#8)

/-- R63, R18, R81: Steps read A, X, PC and the bytes of the bus, and nothing else: two machines that agree on those
run alike for any number of Steps, add the same cycles and append the same events, whatever their Y, SP, FLAGS,
CYCLES and earlier events are. -/
def Obligations.RunsDependOnInputsAlone : Prop :=
  ∀ (k : Nat) (s s' : State), SameInputs s s' →
    ∃ t t', core.run k s = .next t ∧ core.run k s' = .next t' ∧ SameInputs t t' ∧
      t.cpu.cycles - s.cpu.cycles = t'.cpu.cycles - s'.cpu.cycles ∧
      ∃ events, t.diag = s.diag ++ events ∧ t'.diag = s'.diag ++ events

/-- R18, R61: over k Steps CYCLES rises by at least 2k and at most 6k, where the sum stays below 2^64 (log entry 3). -/
def Obligations.CyclesRiseWithinBounds : Prop :=
  ∀ (k : Nat) (s : State), s.cpu.cycles.toNat + 6 * k < 2 ^ 64 →
    ∃ t, core.run k s = .next t ∧
      s.cpu.cycles.toNat + 2 * k ≤ t.cpu.cycles.toNat ∧ t.cpu.cycles.toNat ≤ s.cpu.cycles.toNat + 6 * k

/-! ## Memory (20_memory.md R41; D6) -/

/-- R41: the port of RAM64K: a read returns M[a] and changes nothing, a write sets M[a] and no other byte, and neither
faults. -/
def Obligations.RamPortReadsLastWrite : Prop :=
  ∀ (m : Memory) (a : Addr) (v : Byte),
    ram64k.read m a = some (m.read a, m) ∧
    ∃ m', ram64k.write m a v = some m' ∧ m'.read a = v ∧ ∀ b, b ≠ a → m'.read b = m.read b

/-- R41: the launch parameter MEM0 is free: every assignment of bytes to the 65536 addresses is the contents of some
memory of the model. -/
def Obligations.EveryMem0IsRepresentable : Prop :=
  ∀ f : Addr → Byte, ∃ m : Memory, m.wf = true ∧ ∀ a, m.read a = f a

/-- The canonical form of the model's memory is one: memories with the same contents are the same data (a property of
the model's representation, log entry 1). -/
def Obligations.SameContentsSameMemory : Prop :=
  ∀ m m' : Memory, m.wf = true → m'.wf = true → (∀ a : Addr, m.read a = m'.read a) → m = m'

/-- R29, R98: bytes placed from an address on are read back at ascending addresses modulo 2^16 (log entry 2). -/
def Obligations.PlacedBytesAreReadBack : Prop :=
  ∀ (m : Memory) (a : Addr) (bytes : List Byte), bytes.length ≤ 65536 →
    ∀ (k : Nat) (h : k < bytes.length), (m.place a bytes).read (a + BitVec.ofNat 16 k) = bytes[k]

/-! ## Reset (10_state.md R22; 70_reset_and_hazards.md R95, R97) -/

/-- R22: every register is zero at construction, on whatever bus contents; reset is construction. -/
def Obligations.RegistersAreZeroAtConstruction : Prop :=
  ∀ s : State, s = State.reset ∨ (∃ mem0, s = State.construct mem0) →
    s.cpu.a = 0x00#8 ∧ s.cpu.x = 0x00#8 ∧ s.cpu.y = 0x00#8 ∧ s.cpu.sp = 0x00#8 ∧ s.cpu.flags = 0x00#8 ∧
    s.cpu.pc = 0x0000#16 ∧ s.cpu.cycles = 0#64

/-- R95, R97: construction leaves the bus as given and no diagnostic, and the first Step fetches at address 0x0000,
with no vector read. -/
def Obligations.FirstStepFetchesAtZero : Prop :=
  ∀ mem0 : Memory, (State.construct mem0).mem = mem0 ∧ (State.construct mem0).diag = [] ∧
    step (State.construct mem0) =
      exec (decodeFrom fun k => mem0.read (BitVec.ofNat 16 k)) (State.construct mem0)

/-- The reset state meets the invariant of the model's data. Its memory, the list of nothing, is the model's choice,
log entry 1: the spec assumes no byte of MEM0 (R41). -/
def Obligations.ResetMeetsInvariant : Prop := State.reset.Inv

/-- Every Step keeps the invariant: memory stays in its canonical form, so that equal contents stay equal data. -/
def Obligations.StepKeepsInvariant : Prop :=
  ∀ s t : State, s.Inv → step s = .next t → t.Inv

/-- R37, R53, R101: a session of Steps and host writes between them, in any order, always completes and keeps the
invariant. -/
def Obligations.SessionsCompleteAndKeepInvariant : Prop :=
  ∀ (events : List Event) (s : State), s.Inv → ∃ t, s.session events = .next t ∧ t.Inv

/-! ## The engine over a platform bus (20_memory.md R25 to R34, R42; 40_step_engine.md R54) -/

/-- R54: the machine's Step is the spec's Step, phase by phase, on RAM64K: the same registers, memory and diagnostic
output from every state. -/
def Obligations.StepIsTheSpecStepOnRam : Prop :=
  ∀ s : State, ∃ e, stepOn ram64k s.toEngine = .ok e ∧ step s = .next e.toState

/-- R31, R32: a Step makes exactly the bus accesses of R31's table, in its order (`State.busAccesses`), each once; the
order of the operand bytes and the absence of others are the spec's decisions D7 and D8, log entry 5. -/
def Obligations.StepMakesTheListedAccesses : Prop :=
  ∀ (s : State) (log : List Access), ∃ t, step s = .next t ∧
    stepOn (recordingBus ram64k) { cpu := s.cpu, bus := (s.mem, log), diag := s.diag } =
      .ok { cpu := t.cpu, bus := (t.mem, log ++ s.busAccesses), diag := t.diag }

/-- R42, R84: on a bus that faults on some accesses, the Step ends in BusFault at the first access of R31's table that
faults, with its address and kind, and completes as on RAM64K when none does (D9, log entries 4 and 17; the order D7
and D8, log entry 5). -/
def Obligations.FaultingBusEndsStepAtFirstFault : Prop :=
  ∀ (s : State) (bad : Access → Bool),
    stepOn (faultingBus bad ram64k) s.toEngine =
      match s.busAccesses.find? bad with
      | some x => .error (.busFault x.addr x.kind)
      | none => stepOn ram64k s.toEngine

/-- R42, R64, R82, R84: on any bus a Step ends in a fault exactly when its bus does not serve one of its accesses, each
made at the bus state the accesses before it left: the fetch at PC, the operand reads at PC + 1 and PC + 2, then the
read or write at EA; and the fault names the first such access. The core itself raises none. That the engine fills in
the address and kind is log entry 17, the treatment D9 (log entry 4), the order D7 (log entry 5), the address wrap D1
and D2 (log entry 2). -/
def Obligations.OnlyTheBusFaults : Prop :=
  ∀ (β : Type) (B : Bus β) (e : Engine β) (f : Fault), stepOn B e = .error f ↔
    (B.read e.bus e.cpu.pc = none ∧ f = .busFault e.cpu.pc .read) ∨
    ∃ op b, B.read e.bus e.cpu.pc = some (op, b) ∧
      ((op = 0x01#8 ∨ op = 0x02#8 ∨ op = 0x03#8 ∨ op = 0x04#8) ∧
          B.read b (e.cpu.pc + 1#16) = none ∧ f = .busFault (e.cpu.pc + 1#16) .read ∨
       op = 0x02#8 ∧ (∃ z b1, B.read b (e.cpu.pc + 1#16) = some (z, b1) ∧
          B.read b1 (eaZeroPage z) = none ∧ f = .busFault (eaZeroPage z) .read) ∨
       op = 0x03#8 ∧ (∃ lo b1, B.read b (e.cpu.pc + 1#16) = some (lo, b1) ∧
          (B.read b1 (e.cpu.pc + 2#16) = none ∧ f = .busFault (e.cpu.pc + 2#16) .read ∨
           ∃ hi b2, B.read b1 (e.cpu.pc + 2#16) = some (hi, b2) ∧
             B.write b2 (eaAbsolute lo hi) e.cpu.a = none ∧ f = .busFault (eaAbsolute lo hi) .write)) ∨
       op = 0x04#8 ∧ (∃ z b1, B.read b (e.cpu.pc + 1#16) = some (z, b1) ∧
          (B.read b1 (eaZeroPageX z e.cpu.x) = none ∧ f = .busFault (eaZeroPageX z e.cpu.x) .read ∨
           ∃ v b2, B.read b1 (eaZeroPageX z e.cpu.x) = some (v, b2) ∧
             B.write b2 (eaZeroPageX z e.cpu.x) (v + 1#8) = none ∧ f = .busFault (eaZeroPageX z e.cpu.x) .write)))

/-- R31, R33: on any bus, side effects included, a completed Step makes the accesses of R31's row for the opcode it
fetched, at R31's addresses and in R31's order, the low operand byte first, each once and at the bus state the one
before it left, and ends at the bus state the last one left; a load puts the byte read last into A. Recording them
changes nothing else. Order and completeness are D7 and D8 (log entry 5), the address wrap D1 and D2 (log entry 2). -/
def Obligations.AccessKindsOnAnyBus : Prop :=
  ∀ (β : Type) (B : Bus β) (e : Engine β) (log : List Access) (op : Byte) (b : β) (e' : Engine (β × List Access)),
    B.read e.bus e.cpu.pc = some (op, b) →
    stepOn (recordingBus B) { cpu := e.cpu, bus := (e.bus, log), diag := e.diag } = .ok e' →
    stepOn B e = .ok { cpu := e'.cpu, bus := e'.bus.1, diag := e'.diag } ∧
    ∃ accesses, e'.bus.2 = log ++ accesses ∧
      (accesses.map Access.kind =
        if op = 0x01#8 then [.read, .read]
        else if op = 0x02#8 then [.read, .read, .read]
        else if op = 0x03#8 ∨ op = 0x04#8 then [.read, .read, .read, .write]
        else [.read]) ∧
      (op = 0x00#8 ∨ 5 ≤ op.toNat → accesses = [.read e.cpu.pc] ∧ e'.bus.1 = b) ∧
      (op = 0x01#8 → accesses = [.read e.cpu.pc, .read (e.cpu.pc + 1#16)] ∧
        B.read b (e.cpu.pc + 1#16) = some (e'.cpu.a, e'.bus.1)) ∧
      (op = 0x02#8 → ∃ z b1, B.read b (e.cpu.pc + 1#16) = some (z, b1) ∧
        accesses = [.read e.cpu.pc, .read (e.cpu.pc + 1#16), .read (eaZeroPage z)] ∧
        B.read b1 (eaZeroPage z) = some (e'.cpu.a, e'.bus.1)) ∧
      (op = 0x03#8 → ∃ lo b1 hi b2, B.read b (e.cpu.pc + 1#16) = some (lo, b1) ∧
        B.read b1 (e.cpu.pc + 2#16) = some (hi, b2) ∧
        accesses = [.read e.cpu.pc, .read (e.cpu.pc + 1#16), .read (e.cpu.pc + 2#16),
          .write (eaAbsolute lo hi) e.cpu.a] ∧
        B.write b2 (eaAbsolute lo hi) e.cpu.a = some e'.bus.1) ∧
      (op = 0x04#8 → ∃ z b1 v b2, B.read b (e.cpu.pc + 1#16) = some (z, b1) ∧
        B.read b1 (eaZeroPageX z e.cpu.x) = some (v, b2) ∧
        accesses = [.read e.cpu.pc, .read (e.cpu.pc + 1#16), .read (eaZeroPageX z e.cpu.x),
          .write (eaZeroPageX z e.cpu.x) (v + 1#8)] ∧
        B.write b2 (eaZeroPageX z e.cpu.x) (v + 1#8) = some e'.bus.1)

/-- R58, R60, R61, R62, R80, on any bus, side effects included: whatever the bus answers, a completed Step moves PC by
the length and CYCLES by the charge that the opcode fetched fixes (modulo 2^16 and 2^64: log entries 2 and 3), keeps X,
Y, SP and FLAGS, and A unless it is a load, and appends a diagnostic exactly for an unknown opcode. -/
def Obligations.StepOnAnyBusWritesItsRegisters : Prop :=
  ∀ (β : Type) (B : Bus β) (e e' : Engine β) (op : Byte) (b : β),
    B.read e.bus e.cpu.pc = some (op, b) → stepOn B e = .ok e' →
    e'.cpu = { e.cpu with
      a := if op = 0x01#8 ∨ op = 0x02#8 then e'.cpu.a else e.cpu.a,
      pc := e.cpu.pc + (if op = 0x03#8 then 3#16
        else if op = 0x01#8 ∨ op = 0x02#8 ∨ op = 0x04#8 then 2#16 else 1#16),
      cycles := e.cpu.cycles + (if op = 0x02#8 then 3#64 else if op = 0x03#8 then 4#64
        else if op = 0x04#8 then 6#64 else 2#64) } ∧
    e'.diag = if op.toNat < 5 then e.diag else e.diag ++ [.unknownOpcode op e.cpu.pc]

/-! ## The resolver and the execute phase (41_addressing_modes.md; 40_step_engine.md R60) -/

/-- R67 to R72 on RAM64K: the effective address each mode returns, as a number, and PC after it. PC is the address
after the opcode on entry; PC and the AbsoluteX sum wrap modulo 2^16 (D1 to D3; log entries 2 and 9). -/
def Obligations.ResolverEffectiveAddresses : Prop :=
  ∀ e : Engine Memory,
    resolve ram64k .none e = .ok (0x0000#16, e) ∧
    resolve ram64k .immediate e =
      .ok (e.cpu.pc, { e with cpu := { e.cpu with pc := e.cpu.pc + 1#16 } }) ∧
    (∃ ea, resolve ram64k .zeroPage e = .ok (ea, { e with cpu := { e.cpu with pc := e.cpu.pc + 1#16 } }) ∧
      ea.toNat = (e.bus.read e.cpu.pc).toNat) ∧
    (∃ ea, resolve ram64k .absolute e = .ok (ea, { e with cpu := { e.cpu with pc := e.cpu.pc + 2#16 } }) ∧
      ea.toNat = (e.bus.read e.cpu.pc).toNat + 256 * (e.bus.read (e.cpu.pc + 1#16)).toNat) ∧
    (∃ ea, resolve ram64k .zeroPageX e = .ok (ea, { e with cpu := { e.cpu with pc := e.cpu.pc + 1#16 } }) ∧
      ea.toNat = ((e.bus.read e.cpu.pc).toNat + e.cpu.x.toNat) % 256) ∧
    (∃ ea, resolve ram64k .absoluteX e = .ok (ea, { e with cpu := { e.cpu with pc := e.cpu.pc + 2#16 } }) ∧
      ea.toNat = ((e.bus.read e.cpu.pc).toNat + 256 * (e.bus.read (e.cpu.pc + 1#16)).toNat + e.cpu.x.toNat) % 65536)

/-- R66, R24, on any bus: a resolver writes no register but PC, which it advances by the operand bytes its mode
consumes (modulo 2^16, log entry 2), and the zero-page modes return an address of the zero page. -/
def Obligations.ResolverWritesPcOnly : Prop :=
  ∀ (β : Type) (B : Bus β) (m : Mode) (e e' : Engine β) (ea : Addr), resolve B m e = .ok (ea, e') →
    e'.cpu = { e.cpu with pc := e.cpu.pc + (match m with
      | .none => 0#16
      | .immediate | .zeroPage | .zeroPageX => 1#16
      | .absolute | .absoluteX => 2#16) } ∧
    e'.diag = e.diag ∧ ((m = .zeroPage ∨ m = .zeroPageX) → ea.toNat < 256)

/-- R60, R17, on any bus: an execute function writes A only if it is the load's, and no other register; it never moves
PC; NOP's changes nothing. -/
def Obligations.ExecutePhaseWritesOnlyWhatItsRuleNames : Prop :=
  ∀ (β : Type) (B : Bus β) (act : Action) (ea : Addr) (e e' : Engine β), execute B act ea e = .ok e' →
    e'.cpu = { e.cpu with a := e'.cpu.a } ∧ e'.diag = e.diag ∧
    (act ≠ .loadA → e'.cpu.a = e.cpu.a) ∧
    (act = .loadA → B.read e.bus ea = some (e'.cpu.a, e'.bus)) ∧
    (act = .storeA → B.write e.bus ea e.cpu.a = some e'.bus) ∧
    (act = .increment → ∃ v b, B.read e.bus ea = some (v, b) ∧ B.write b ea (v + 1#8) = some e'.bus) ∧
    (act = .skip → e' = e)

/-! ## The host (10_state.md R21; 70_reset_and_hazards.md R98, R101; D12, D18) -/

/-- R21: the host may set each register to any value of its width, and a byte behind the bus; nothing else changes. -/
def Obligations.HostWritesSetOneRegister : Prop :=
  ∀ (s : State) (v : Byte) (p : Addr) (c : Cycles),
    s.hostWrite (.a v) = { s with cpu := { s.cpu with a := v } } ∧
    s.hostWrite (.x v) = { s with cpu := { s.cpu with x := v } } ∧
    s.hostWrite (.y v) = { s with cpu := { s.cpu with y := v } } ∧
    s.hostWrite (.sp v) = { s with cpu := { s.cpu with sp := v } } ∧
    s.hostWrite (.flags v) = { s with cpu := { s.cpu with flags := v } } ∧
    s.hostWrite (.pc p) = { s with cpu := { s.cpu with pc := p } } ∧
    s.hostWrite (.cycles c) = { s with cpu := { s.cpu with cycles := c } } ∧
    (s.hostWrite (.byte p v)).cpu = s.cpu ∧ (s.hostWrite (.byte p v)).diag = s.diag ∧
    (s.hostWrite (.byte p v)).mem.read p = v ∧
    ∀ adr, adr ≠ p → (s.hostWrite (.byte p v)).mem.read adr = s.mem.read adr

/-- R101, R39 (D12, log entry 10): a host write of a byte and of PC is what the next Step fetches: an unknown opcode
written there is reported with that address, and a NOP written there reports nothing. -/
def Obligations.HostWriteIsSeenByNextStep : Prop :=
  ∀ (s : State) (p : Addr) (op : Byte),
    let u := (s.hostWrite (.byte p op)).hostWrite (.pc p)
    u.fetch.opcode = op ∧
    (5 ≤ op.toNat → ∃ t, step u = .next t ∧ t.diag = s.diag ++ [.unknownOpcode op p]) ∧
    (op = 0x00#8 → ∃ t, step u = .next t ∧ t.diag = s.diag ∧ t.cpu.pc = p + 1#16)

/-- R51, R52 (D18, log entry 15): each mnemonic of the notation is one instruction whose operand is the number
written; `.org a` gives no byte and sets the place of the next one to a; a line whose operand is out of range is
refused, not truncated. -/
def Obligations.NotationLinesAreSingleInstructions : Prop :=
  (∃ bs, AsmLine.nop.bytes = some bs ∧ decode bs = .ok (.nop, [])) ∧
  (∀ n, 256 ≤ n → (AsmLine.ldaImm n).bytes = none ∧ (AsmLine.ldaZp n).bytes = none ∧
    (AsmLine.incZpx n).bytes = none ∧ (AsmLine.byte n).bytes = none) ∧
  (∀ n, 65536 ≤ n → (AsmLine.staAbs n).bytes = none ∧ (AsmLine.org n).bytes = none) ∧
  (∀ n, n < 256 → ∃ v : Byte, v.toNat = n ∧
    (∃ bs, (AsmLine.ldaImm n).bytes = some bs ∧ decode bs = .ok (.ldaImm v, [])) ∧
    (∃ bs, (AsmLine.ldaZp n).bytes = some bs ∧ decode bs = .ok (.ldaZp v, [])) ∧
    (∃ bs, (AsmLine.incZpx n).bytes = some bs ∧ decode bs = .ok (.incZpx v, [])) ∧
    (AsmLine.byte n).bytes = some [v]) ∧
  (∀ n, n < 65536 → (AsmLine.org n).bytes = some [] ∧
    (∀ place : Addr, ((AsmLine.org n).nextPlace place).toNat = n) ∧
    ∃ a : Addr, a.toNat = n ∧ ∃ bs, (AsmLine.staAbs n).bytes = some bs ∧ decode bs = .ok (.staAbs a, []))

/-- R51, R98 (D18, log entry 15; the placement wraps modulo 2^16, log entry 2): a program is refused exactly when one of
its lines is; a program goes on in the memory and at the place its first lines leave; and after `.org a` the bytes of
the lines up to the next `.org` stand from address a on in order, and no other byte changes. -/
def Obligations.ProgramLinesArePlacedInOrder : Prop :=
  (∀ (m : Memory) (p : Addr) (lines : List AsmLine),
    assemble m p lines = none ↔ ∃ l ∈ lines, l.bytes = none) ∧
  (∀ (m m1 : Memory) (p : Addr) (before after : List AsmLine), assemble m p before = some m1 →
    assemble m p (before ++ after) = assemble m1 (before.foldl (fun q l => l.nextPlace q) p) after) ∧
  (∀ (m : Memory) (p : Addr) (a : Nat) (code : List AsmLine), a < 65536 →
    (∀ l ∈ code, l.inRange = true ∧ ∀ x, l ≠ .org x) → (code.flatMap AsmLine.rawBytes).length ≤ 65536 →
    ∃ m', assemble m p (.org a :: code) = some m' ∧
      (∀ (k : Nat) (h : k < (code.flatMap AsmLine.rawBytes).length),
        m'.read (BitVec.ofNat 16 (a + k)) = (code.flatMap AsmLine.rawBytes)[k]) ∧
      (∀ adr : Addr, (∀ k < (code.flatMap AsmLine.rawBytes).length, adr ≠ BitVec.ofNat 16 (a + k)) →
        m'.read adr = m.read adr))
end

