-- ==== Sys2Proof/Laws/Decode.lean ====
section
/-! SUPPORT. The table and the decoder, opcode by opcode (30_encoding.md R45, R47). -/

namespace Sys2Proof

@[simp] theorem table_nop : table 0x00#8 = some .nop := rfl
@[simp] theorem table_ldaImm : table 0x01#8 = some .ldaImm := rfl
@[simp] theorem table_ldaZp : table 0x02#8 = some .ldaZp := rfl
@[simp] theorem table_staAbs : table 0x03#8 = some .staAbs := rfl
@[simp] theorem table_incZpx : table 0x04#8 = some .incZpx := rfl

@[simp] theorem length_nop : Mnemonic.length .nop = 1 := rfl
@[simp] theorem length_ldaImm : Mnemonic.length .ldaImm = 2 := rfl
@[simp] theorem length_ldaZp : Mnemonic.length .ldaZp = 2 := rfl
@[simp] theorem length_staAbs : Mnemonic.length .staAbs = 3 := rfl
@[simp] theorem length_incZpx : Mnemonic.length .incZpx = 2 := rfl

/-- An opcode of 0x05 or above is absent from the table. -/
theorem table_unknown {op : Byte} (h : 5 ≤ op.toNat) : table op = none := by
  have h0 : op ≠ 0x00#8 := by rintro rfl; revert h; decide
  have h1 : op ≠ 0x01#8 := by rintro rfl; revert h; decide
  have h2 : op ≠ 0x02#8 := by rintro rfl; revert h; decide
  have h3 : op ≠ 0x03#8 := by rintro rfl; revert h; decide
  have h4 : op ≠ 0x04#8 := by rintro rfl; revert h; decide
  simp [table, descriptor, h0.symm, h1.symm, h2.symm, h3.symm, h4.symm]

/-- An opcode is one of the five of the table, or an unknown one. -/
theorem opcode_cases (op : Byte) :
    op = 0x00#8 ∨ op = 0x01#8 ∨ op = 0x02#8 ∨ op = 0x03#8 ∨ op = 0x04#8 ∨ 5 ≤ op.toNat := by
  by_cases h : 5 ≤ op.toNat
  · simp [h]
  · have : op.toNat = 0 ∨ op.toNat = 1 ∨ op.toNat = 2 ∨ op.toNat = 3 ∨ op.toNat = 4 := by omega
    simp only [← BitVec.toNat_inj]
    simpa using Or.imp_right (Or.imp_right (Or.imp_right (Or.imp_right Or.inl))) this

/-- What the decoder reads for each opcode: the one case lemma about it. -/
theorem decodeFrom_cases (f : Nat → Byte) :
    (f 0 = 0x00#8 ∧ decodeFrom f = .nop) ∨
    (f 0 = 0x01#8 ∧ decodeFrom f = .ldaImm (f 1)) ∨
    (f 0 = 0x02#8 ∧ decodeFrom f = .ldaZp (f 1)) ∨
    (f 0 = 0x03#8 ∧ decodeFrom f = .staAbs (concat16 (f 2) (f 1))) ∨
    (f 0 = 0x04#8 ∧ decodeFrom f = .incZpx (f 1)) ∨
    (5 ≤ (f 0).toNat ∧ decodeFrom f = .unknown (f 0)) := by
  rcases opcode_cases (f 0) with h | h | h | h | h | h
  · exact .inl ⟨h, by simp [decodeFrom, h]⟩
  · exact .inr (.inl ⟨h, by simp [decodeFrom, h]⟩)
  · exact .inr (.inr (.inl ⟨h, by simp [decodeFrom, h]⟩))
  · exact .inr (.inr (.inr (.inl ⟨h, by simp [decodeFrom, h]⟩)))
  · exact .inr (.inr (.inr (.inr (.inl ⟨h, by simp [decodeFrom, h]⟩))))
  · exact .inr (.inr (.inr (.inr (.inr ⟨h, by simp [decodeFrom, table_unknown h]⟩))))

/-- The decoder gives well-formed instructions only. -/
theorem decodeFrom_wf (f : Nat → Byte) : (decodeFrom f).wf = true := by
  rcases decodeFrom_cases f with ⟨_, h⟩ | ⟨_, h⟩ | ⟨_, h⟩ | ⟨_, h⟩ | ⟨_, h⟩ | ⟨h5, h⟩ <;>
    simp [h, Instr.wf]
  exact h5

/-- The decoder keeps the opcode byte. -/
theorem decodeFrom_opcode (f : Nat → Byte) : (decodeFrom f).opcode = f 0 := by
  rcases decodeFrom_cases f with ⟨h0, h⟩ | ⟨h0, h⟩ | ⟨h0, h⟩ | ⟨h0, h⟩ | ⟨h0, h⟩ | ⟨h0, h⟩ <;>
    simp [h, h0, Instr.opcode]

/-- The length of an instruction, opcode by opcode (R43). -/
theorem lengthOf_cases (op : Byte) :
    (op = 0x00#8 ∧ lengthOf op = 1) ∨ (op = 0x01#8 ∧ lengthOf op = 2) ∨ (op = 0x02#8 ∧ lengthOf op = 2) ∨
    (op = 0x03#8 ∧ lengthOf op = 3) ∨ (op = 0x04#8 ∧ lengthOf op = 2) ∨ (5 ≤ op.toNat ∧ lengthOf op = 1) := by
  rcases opcode_cases op with h | h | h | h | h | h
  all_goals first
    | (subst h; simp [lengthOf])
    | simp [lengthOf, table_unknown h, h]

end Sys2Proof
end

