-- ==== Sys2Proof/Laws/Engine.lean ====
section
/-! SUPPORT. What an access, an operand and the phases of a Step do on any bus, and the accesses on the buses of Machine/Engine.lean. -/

namespace Sys2Proof.Machine

/-! ## RAM64K -/

@[simp] theorem ram64k_read (m : Memory) (a : Addr) : ram64k.read m a = some (m.read a, m) := rfl

@[simp] theorem ram64k_write (m : Memory) (a : Addr) (v : Byte) : ram64k.write m a v = some (m.write a v) := rfl

@[simp] theorem Engine.memRead_ram64k (e : Engine Memory) (a : Addr) :
    e.memRead ram64k a = .ok (e.bus.read a, e) := rfl

@[simp] theorem Engine.memWrite_ram64k (e : Engine Memory) (a : Addr) (v : Byte) :
    e.memWrite ram64k a v = .ok { e with bus := e.bus.write a v } := rfl

/-! ## Recording and faulting buses over RAM64K -/

@[simp] theorem Engine.memRead_recording (e : Engine (Memory × List Access)) (a : Addr) :
    e.memRead (recordingBus ram64k) a = .ok (e.bus.1.read a, { e with bus := (e.bus.1, e.bus.2 ++ [.read a]) }) := rfl

@[simp] theorem Engine.memWrite_recording (e : Engine (Memory × List Access)) (a : Addr) (v : Byte) :
    e.memWrite (recordingBus ram64k) a v =
      .ok { e with bus := (e.bus.1.write a v, e.bus.2 ++ [.write a v]) } := rfl

theorem Engine.memRead_faulting (bad : Access → Bool) (e : Engine Memory) (a : Addr) :
    e.memRead (faultingBus bad ram64k) a =
      if bad (.read a) then .error (.busFault a .read) else .ok (e.bus.read a, e) := by
  unfold Engine.memRead faultingBus
  by_cases h : bad (.read a) = true <;> simp [h]

theorem Engine.memWrite_faulting (bad : Access → Bool) (e : Engine Memory) (a : Addr) (v : Byte) :
    e.memWrite (faultingBus bad ram64k) a v =
      if bad (.write a v) then .error (.busFault a .write) else .ok { e with bus := e.bus.write a v } := by
  unfold Engine.memWrite faultingBus
  by_cases h : bad (.write a v) = true <;> simp [h]

/-! ## One access on any bus -/

/-- A read that the bus serves gives its byte and changes the bus alone. -/
theorem Engine.memRead_some {β : Type} {B : Bus β} {e : Engine β} {a : Addr} {v : Byte} {b : β}
    (h : B.read e.bus a = some (v, b)) : e.memRead B a = .ok (v, { e with bus := b }) := by
  simp [Engine.memRead, h]

/-- A read that the bus does not serve ends in the fault of that access (R42). -/
theorem Engine.memRead_none {β : Type} {B : Bus β} {e : Engine β} {a : Addr}
    (h : B.read e.bus a = none) : e.memRead B a = .error (.busFault a .read) := by
  simp [Engine.memRead, h]

/-- A write that the bus serves changes the bus alone. -/
theorem Engine.memWrite_some {β : Type} {B : Bus β} {e : Engine β} {a : Addr} {v : Byte} {b : β}
    (h : B.write e.bus a v = some b) : e.memWrite B a v = .ok { e with bus := b } := by
  simp [Engine.memWrite, h]

/-- A write that the bus does not serve ends in the fault of that access (R42). -/
theorem Engine.memWrite_none {β : Type} {B : Bus β} {e : Engine β} {a : Addr} {v : Byte}
    (h : B.write e.bus a v = none) : e.memWrite B a v = .error (.busFault a .write) := by
  simp [Engine.memWrite, h]

/-- A read that completes is one the bus served. -/
theorem Engine.memRead_ok {β : Type} {B : Bus β} {e e' : Engine β} {a : Addr} {v : Byte}
    (h : e.memRead B a = .ok (v, e')) : ∃ b, B.read e.bus a = some (v, b) ∧ e' = { e with bus := b } := by
  unfold Engine.memRead at h
  split at h
  · next hb => cases h; exact ⟨_, hb, rfl⟩
  · cases h

/-- A write that completes is one the bus served. -/
theorem Engine.memWrite_ok {β : Type} {B : Bus β} {e e' : Engine β} {a : Addr} {v : Byte}
    (h : e.memWrite B a v = .ok e') : ∃ b, B.write e.bus a v = some b ∧ e' = { e with bus := b } := by
  unfold Engine.memWrite at h
  split at h
  · next hb => cases h; exact ⟨_, hb, rfl⟩
  · cases h

/-- A read that fails is one the bus did not serve, and the fault names it. -/
theorem Engine.memRead_error {β : Type} {B : Bus β} {e : Engine β} {a : Addr} {f : Fault}
    (h : e.memRead B a = .error f) : B.read e.bus a = none ∧ f = .busFault a .read := by
  unfold Engine.memRead at h
  split at h
  · cases h
  · next hb => cases h; exact ⟨hb, rfl⟩

/-- A write that fails is one the bus did not serve, and the fault names it. -/
theorem Engine.memWrite_error {β : Type} {B : Bus β} {e : Engine β} {a : Addr} {v : Byte} {f : Fault}
    (h : e.memWrite B a v = .error f) : B.write e.bus a v = none ∧ f = .busFault a .write := by
  unfold Engine.memWrite at h
  split at h
  · cases h
  · next hb => cases h; exact ⟨hb, rfl⟩

/-! ## Operand bytes on any bus -/

/-- An operand byte is one read at PC, and moves PC alone by one. -/
theorem Engine.operandByte_ok {β : Type} {B : Bus β} {e e' : Engine β} {v : Byte}
    (h : e.operandByte B = .ok (v, e')) :
    ∃ b, B.read e.bus e.cpu.pc = some (v, b) ∧ e' = { e with cpu := e.cpu.advancePc 1, bus := b } := by
  unfold Engine.operandByte at h
  split at h
  · next h1 =>
    obtain ⟨b, hb, rfl⟩ := Engine.memRead_ok h1
    cases h
    exact ⟨b, hb, rfl⟩
  · cases h

/-- An operand pair is two reads, at PC and PC + 1 in that order, and moves PC alone by two. -/
theorem Engine.operandPair_ok {β : Type} {B : Bus β} {e e' : Engine β} {lo hi : Byte}
    (h : e.operandPair B = .ok (lo, hi, e')) :
    ∃ b b', B.read e.bus e.cpu.pc = some (lo, b) ∧ B.read b (e.cpu.pc + 1#16) = some (hi, b') ∧
      e' = { e with cpu := e.cpu.advancePc 2, bus := b' } := by
  unfold Engine.operandPair at h
  split at h
  · cases h
  · next h1 =>
    obtain ⟨b, hb, rfl⟩ := Engine.memRead_ok h1
    split at h
    · next h2 =>
      obtain ⟨b', hb', rfl⟩ := Engine.memRead_ok h2
      cases h
      exact ⟨b, b', hb, hb', rfl⟩
    · cases h

/-! ## The phases of a Step on any bus -/

/-- Once the opcode of a table entry is fetched, the Step is that entry's resolve, execute and account phases. -/
theorem stepOn_entry {β : Type} {B : Bus β} {e : Engine β} {op : Byte} {b : β} {m : Mnemonic}
    (h : B.read e.bus e.cpu.pc = some (op, b)) (ht : table op = some m) :
    stepOn B e = runEntry B (descriptor m) (Engine.advance { e with bus := b } 1) := by
  simp [stepOn, Engine.memRead_some h, ht]

/-- Once an opcode the table does not hold is fetched, the Step is the fallback, whatever the bus. -/
theorem stepOn_fallback {β : Type} {B : Bus β} {e : Engine β} {op : Byte} {b : β}
    (h : B.read e.bus e.cpu.pc = some (op, b)) (ht : table op = none) :
    stepOn B e = .ok (runFallback op e.cpu.pc (Engine.advance { e with bus := b } 1)) := by
  simp [stepOn, Engine.memRead_some h, ht]

/-- A fetch that the bus does not serve ends the Step (R42). -/
theorem stepOn_fetch_fault {β : Type} {B : Bus β} {e : Engine β} (h : B.read e.bus e.cpu.pc = none) :
    stepOn B e = .error (.busFault e.cpu.pc .read) := by
  simp [stepOn, Engine.memRead_none h]

/-- An entry completes exactly when its two phases do, and then charges its cycles. -/
theorem runEntry_ok {β : Type} {B : Bus β} {d : Descriptor} {e e' : Engine β} :
    runEntry B d e = .ok e' ↔
      ∃ ea e1 e2, resolve B d.mode e = .ok (ea, e1) ∧ execute B d.action ea e1 = .ok e2 ∧
        e' = e2.account d.baseCycles := by
  unfold runEntry
  cases hr : resolve B d.mode e with
  | error f => simp
  | ok r =>
    obtain ⟨ea, e1⟩ := r
    cases hx : execute B d.action ea e1 with
    | error f => simp [hx]
    | ok e2 => simp [hx, eq_comm]

/-- An entry ends in a fault exactly when its resolver does, or its execute function does after the resolver. -/
theorem runEntry_error {β : Type} {B : Bus β} {d : Descriptor} {e : Engine β} {f : Fault} :
    runEntry B d e = .error f ↔
      resolve B d.mode e = .error f ∨
        ∃ ea e1, resolve B d.mode e = .ok (ea, e1) ∧ execute B d.action ea e1 = .error f := by
  unfold runEntry
  cases hr : resolve B d.mode e with
  | error g => simp
  | ok r =>
    obtain ⟨ea, e1⟩ := r
    cases hx : execute B d.action ea e1 <;> simp [hx]

end Sys2Proof.Machine
end

