-- ==== Sys2Proof/Laws/Memory.lean ====
section
/-! SUPPORT. What the memory operations do: a read after a write, and the canonical form (20_memory.md R41). -/

namespace Sys2Proof.Machine

/-! ## Reading a cell list after its two changes -/

theorem Memory.lookup_filter_ne (key other : Nat) (m : List Host.Cell) (h : other ≠ key) :
    Memory.lookup other (m.filter fun c => c.1 != key) = Memory.lookup other m := by
  induction m with
  | nil => rfl
  | cons c rest ih =>
    obtain ⟨k, w⟩ := c
    by_cases hk : k = key
    · subst hk
      simp [Memory.lookup, ih, Ne.symm h]
    · simp [hk, Memory.lookup, ih]

theorem Memory.lookup_filter_self (key : Nat) (m : List Host.Cell) :
    Memory.lookup key (m.filter fun c => c.1 != key) = Config.unlistedByte := by
  induction m with
  | nil => rfl
  | cons c rest ih =>
    obtain ⟨k, w⟩ := c
    by_cases hk : k = key
    · simp [hk, ih]
    · simp [hk, Memory.lookup, ih]

theorem Memory.lookup_insertCell (key other : Nat) (v : Byte) (m : List Host.Cell)
    (h : ∀ c ∈ m, c.1 ≠ key) :
    Memory.lookup other (Memory.insertCell key v m) = if other = key then v else Memory.lookup other m := by
  induction m with
  | nil => simp [Memory.insertCell, Memory.lookup, eq_comm]
  | cons c rest ih =>
    obtain ⟨k, w⟩ := c
    have hk : k ≠ key := h (k, w) (by simp)
    have ih := ih fun c hc => h c (by simp [hc])
    by_cases hlt : key < k
    · simp [Memory.insertCell, hlt, Memory.lookup, eq_comm]
    · by_cases ho : k = other
      · subst ho; simp [Memory.insertCell, hlt, Memory.lookup, hk]
      · simp [Memory.insertCell, hlt, Memory.lookup, ho, ih]

/-- A read after a write, for every memory list. -/
theorem Memory.read_write (m : Memory) (a b : Addr) (v : Byte) :
    Memory.read (Memory.write m a v) b = if b = a then v else Memory.read m b := by
  have toNat_iff : b.toNat = a.toNat ↔ b = a := BitVec.toNat_inj
  unfold Memory.write Memory.read
  by_cases hv : v = Config.unlistedByte
  · by_cases hb : b = a
    · subst hb; simp [hv, Memory.lookup_filter_self]
    · simp [hv, hb, Memory.lookup_filter_ne _ _ m (mt toNat_iff.mp hb)]
  · rw [if_neg hv, Memory.lookup_insertCell _ _ _ _ (by simp)]
    by_cases hb : b = a
    · simp [hb]
    · simp [hb, mt toNat_iff.mp hb, Memory.lookup_filter_ne _ _ m (mt toNat_iff.mp hb)]

@[simp] theorem Memory.read_write_self (m : Memory) (a : Addr) (v : Byte) :
    Memory.read (Memory.write m a v) a = v := by simp [Memory.read_write]

theorem Memory.read_write_ne (m : Memory) (a b : Addr) (v : Byte) (h : b ≠ a) :
    Memory.read (Memory.write m a v) b = Memory.read m b := by simp [Memory.read_write, h]

@[simp] theorem Memory.read_nil (a : Addr) : Memory.read [] a = Config.unlistedByte := rfl

/-! ## The canonical form -/

theorem Memory.wfFrom_mono {lo lo' : Nat} {m : List Host.Cell} (h : Memory.wfFrom lo m = true) (hle : lo' ≤ lo) :
    Memory.wfFrom lo' m = true := by
  cases m with
  | nil => rfl
  | cons c rest =>
    obtain ⟨k, w⟩ := c
    simp only [Memory.wfFrom, Bool.and_eq_true, decide_eq_true_eq] at h ⊢
    exact ⟨⟨⟨by omega, h.1.1.2⟩, h.1.2⟩, h.2⟩

theorem Memory.wfFrom_filter (p : Host.Cell → Bool) {lo : Nat} {m : List Host.Cell}
    (h : Memory.wfFrom lo m = true) : Memory.wfFrom lo (m.filter p) = true := by
  induction m generalizing lo with
  | nil => rfl
  | cons c rest ih =>
    obtain ⟨k, w⟩ := c
    simp only [Memory.wfFrom, Bool.and_eq_true, decide_eq_true_eq] at h
    by_cases hp : p (k, w)
    · simp only [List.filter_cons, hp, if_true, Memory.wfFrom, Bool.and_eq_true, decide_eq_true_eq]
      exact ⟨h.1, ih h.2⟩
    · simp only [List.filter_cons, hp]
      exact Memory.wfFrom_mono (ih h.2) (by omega)

theorem Memory.wfFrom_insertCell {key lo : Nat} {v : Byte} {m : List Host.Cell} (h : Memory.wfFrom lo m = true)
    (fresh : ∀ c ∈ m, c.1 ≠ key) (hlo : lo ≤ key) (hkey : key < Config.addressSpace) (hv : v ≠ Config.unlistedByte) :
    Memory.wfFrom lo (Memory.insertCell key v m) = true := by
  induction m generalizing lo with
  | nil => simp [Memory.insertCell, Memory.wfFrom, hlo, hkey, hv]
  | cons c rest ih =>
    obtain ⟨k, w⟩ := c
    have hk : k ≠ key := fresh (k, w) (by simp)
    simp only [Memory.wfFrom, Bool.and_eq_true, decide_eq_true_eq] at h
    by_cases hlt : key < k
    · simp only [Memory.insertCell, hlt, if_true, Memory.wfFrom, Bool.and_eq_true, decide_eq_true_eq]
      exact ⟨⟨⟨hlo, hkey⟩, hv⟩, ⟨⟨by omega, h.1.1.2⟩, h.1.2⟩, h.2⟩
    · simp only [Memory.insertCell, hlt, if_false, Memory.wfFrom, Bool.and_eq_true, decide_eq_true_eq]
      exact ⟨h.1, ih h.2 (fun c hc => fresh c (by simp [hc])) (by omega)⟩

/-- A write keeps the canonical form. -/
theorem Memory.wf_write {m : Memory} (a : Addr) (v : Byte) (h : Memory.wf m = true) :
    Memory.wf (Memory.write m a v) = true := by
  unfold Memory.write Memory.wf at *
  by_cases hv : v = Config.unlistedByte
  · simpa [hv] using Memory.wfFrom_filter _ h
  · rw [if_neg hv]
    exact Memory.wfFrom_insertCell (Memory.wfFrom_filter _ h) (by simp) (Nat.zero_le _) a.isLt hv

@[simp] theorem Memory.wf_nil : Memory.wf [] = true := rfl

/-- Placing bytes keeps the canonical form. -/
theorem Memory.wf_place {m : Memory} (a : Addr) (bs : List Byte) (h : Memory.wf m = true) :
    Memory.wf (Memory.place m a bs) = true := by
  induction bs generalizing m a with
  | nil => exact h
  | cons b rest ih => exact ih (a + 1#16) (Memory.wf_write a b h)

/-- Placing bytes changes no address outside the bytes placed. -/
theorem Memory.read_place_outside (m : Memory) (a adr : Addr) (bs : List Byte)
    (h : ∀ k < bs.length, adr ≠ a + BitVec.ofNat 16 k) :
    Memory.read (Memory.place m a bs) adr = Memory.read m adr := by
  induction bs generalizing m a with
  | nil => rfl
  | cons b rest ih =>
    have h0 : adr ≠ a := by simpa using h 0 (by simp)
    rw [Memory.place, ih, Memory.read_write_ne _ _ _ _ h0]
    intro k hk
    have := h (k + 1) (by simpa using hk)
    rw [BitVec.add_assoc]
    simpa [BitVec.ofNat_add, BitVec.add_comm] using this

end Sys2Proof.Machine
end

