-- ==== Sys2Proof/Laws/PerInstr.lean ====
section
/-! SUPPORT. Statements made of every instruction as syntax, one lemma a constructor. -/

namespace Sys2Proof.Laws

/-- The encoder's bytes begin with the instruction's opcode and are as many as that opcode's format has (30_encoding.md R43). -/
def EncodedLength.Statement (i : Instr) : Prop :=
  i.wf = true → (encode i).head? = some i.opcode ∧ (encode i).length = lengthOf i.opcode

theorem EncodedLength.nop : EncodedLength.Statement .nop := fun _ => ⟨rfl, rfl⟩

theorem EncodedLength.ldaImm (imm8 : Byte) : EncodedLength.Statement (.ldaImm imm8) := fun _ => ⟨rfl, rfl⟩

theorem EncodedLength.ldaZp (zp8 : Byte) : EncodedLength.Statement (.ldaZp zp8) := fun _ => ⟨rfl, rfl⟩

theorem EncodedLength.staAbs (abs16 : Addr) : EncodedLength.Statement (.staAbs abs16) := fun _ => ⟨rfl, rfl⟩

theorem EncodedLength.incZpx (base8 : Byte) : EncodedLength.Statement (.incZpx base8) := fun _ => ⟨rfl, rfl⟩

theorem EncodedLength.unknown (op : Byte) : EncodedLength.Statement (.unknown op) := fun h =>
  ⟨rfl, by simp [encode, Instr.opcode, lengthOf, table_unknown (by simpa [Instr.wf] using h)]⟩

end Sys2Proof.Laws
end

