-- ==== Sys2Proof/Laws/State.lean ====
section
/-! SUPPORT. One lemma a field an update, each true by definition, so that no proof unfolds a record update. -/

namespace Sys2Proof.Machine

/-! ## Registers -/

@[simp] theorem Cpu.advancePc_a (c : Cpu) (n : Nat) : (c.advancePc n).a = c.a := rfl
@[simp] theorem Cpu.advancePc_x (c : Cpu) (n : Nat) : (c.advancePc n).x = c.x := rfl
@[simp] theorem Cpu.advancePc_y (c : Cpu) (n : Nat) : (c.advancePc n).y = c.y := rfl
@[simp] theorem Cpu.advancePc_sp (c : Cpu) (n : Nat) : (c.advancePc n).sp = c.sp := rfl
@[simp] theorem Cpu.advancePc_flags (c : Cpu) (n : Nat) : (c.advancePc n).flags = c.flags := rfl
@[simp] theorem Cpu.advancePc_pc (c : Cpu) (n : Nat) : (c.advancePc n).pc = c.pc + BitVec.ofNat 16 n := rfl
@[simp] theorem Cpu.advancePc_cycles (c : Cpu) (n : Nat) : (c.advancePc n).cycles = c.cycles := rfl
@[simp] theorem Cpu.charge_a (c : Cpu) (n : Nat) : (c.charge n).a = c.a := rfl
@[simp] theorem Cpu.charge_x (c : Cpu) (n : Nat) : (c.charge n).x = c.x := rfl
@[simp] theorem Cpu.charge_y (c : Cpu) (n : Nat) : (c.charge n).y = c.y := rfl
@[simp] theorem Cpu.charge_sp (c : Cpu) (n : Nat) : (c.charge n).sp = c.sp := rfl
@[simp] theorem Cpu.charge_flags (c : Cpu) (n : Nat) : (c.charge n).flags = c.flags := rfl
@[simp] theorem Cpu.charge_pc (c : Cpu) (n : Nat) : (c.charge n).pc = c.pc := rfl
@[simp] theorem Cpu.charge_cycles (c : Cpu) (n : Nat) : (c.charge n).cycles = c.cycles + BitVec.ofNat 64 n := rfl

/-! ## The state -/

@[simp] theorem State.setA_a (s : State) (v : Byte) : (s.setA v).cpu.a = v := rfl
@[simp] theorem State.setA_x (s : State) (v : Byte) : (s.setA v).cpu.x = s.cpu.x := rfl
@[simp] theorem State.setA_y (s : State) (v : Byte) : (s.setA v).cpu.y = s.cpu.y := rfl
@[simp] theorem State.setA_sp (s : State) (v : Byte) : (s.setA v).cpu.sp = s.cpu.sp := rfl
@[simp] theorem State.setA_flags (s : State) (v : Byte) : (s.setA v).cpu.flags = s.cpu.flags := rfl
@[simp] theorem State.setA_pc (s : State) (v : Byte) : (s.setA v).cpu.pc = s.cpu.pc := rfl
@[simp] theorem State.setA_cycles (s : State) (v : Byte) : (s.setA v).cpu.cycles = s.cpu.cycles := rfl
@[simp] theorem State.setA_mem (s : State) (v : Byte) : (s.setA v).mem = s.mem := rfl
@[simp] theorem State.setA_diag (s : State) (v : Byte) : (s.setA v).diag = s.diag := rfl
@[simp] theorem State.readByte_eq (s : State) (a : Addr) : s.readByte a = s.mem.read a := rfl
@[simp] theorem State.writeByte_cpu (s : State) (a : Addr) (v : Byte) : (s.writeByte a v).cpu = s.cpu := rfl
@[simp] theorem State.writeByte_mem (s : State) (a : Addr) (v : Byte) : (s.writeByte a v).mem = s.mem.write a v := rfl
@[simp] theorem State.writeByte_diag (s : State) (a : Addr) (v : Byte) : (s.writeByte a v).diag = s.diag := rfl
@[simp] theorem State.emit_cpu (s : State) (op : Byte) (a : Addr) : (s.emit op a).cpu = s.cpu := rfl
@[simp] theorem State.emit_mem (s : State) (op : Byte) (a : Addr) : (s.emit op a).mem = s.mem := rfl
@[simp] theorem State.emit_diag (s : State) (op : Byte) (a : Addr) : (s.emit op a).diag = s.diag ++ [.unknownOpcode op a] := rfl
@[simp] theorem State.complete_a (s : State) (m : Mnemonic) : (s.complete m).cpu.a = s.cpu.a := rfl
@[simp] theorem State.complete_x (s : State) (m : Mnemonic) : (s.complete m).cpu.x = s.cpu.x := rfl
@[simp] theorem State.complete_y (s : State) (m : Mnemonic) : (s.complete m).cpu.y = s.cpu.y := rfl
@[simp] theorem State.complete_sp (s : State) (m : Mnemonic) : (s.complete m).cpu.sp = s.cpu.sp := rfl
@[simp] theorem State.complete_flags (s : State) (m : Mnemonic) : (s.complete m).cpu.flags = s.cpu.flags := rfl
@[simp] theorem State.complete_pc (s : State) (m : Mnemonic) : (s.complete m).cpu.pc = s.cpu.pc + BitVec.ofNat 16 m.length := rfl
@[simp] theorem State.complete_cycles (s : State) (m : Mnemonic) : (s.complete m).cpu.cycles = s.cpu.cycles + BitVec.ofNat 64 (descriptor m).baseCycles := rfl
@[simp] theorem State.complete_mem (s : State) (m : Mnemonic) : (s.complete m).mem = s.mem := rfl
@[simp] theorem State.complete_diag (s : State) (m : Mnemonic) : (s.complete m).diag = s.diag := rfl
@[simp] theorem State.unknownOpcode_a (s : State) (op : Byte) : (s.unknownOpcode op).cpu.a = s.cpu.a := rfl
@[simp] theorem State.unknownOpcode_x (s : State) (op : Byte) : (s.unknownOpcode op).cpu.x = s.cpu.x := rfl
@[simp] theorem State.unknownOpcode_y (s : State) (op : Byte) : (s.unknownOpcode op).cpu.y = s.cpu.y := rfl
@[simp] theorem State.unknownOpcode_sp (s : State) (op : Byte) : (s.unknownOpcode op).cpu.sp = s.cpu.sp := rfl
@[simp] theorem State.unknownOpcode_flags (s : State) (op : Byte) : (s.unknownOpcode op).cpu.flags = s.cpu.flags := rfl
@[simp] theorem State.unknownOpcode_pc (s : State) (op : Byte) : (s.unknownOpcode op).cpu.pc = s.cpu.pc + 1#16 := rfl
@[simp] theorem State.unknownOpcode_cycles (s : State) (op : Byte) : (s.unknownOpcode op).cpu.cycles = s.cpu.cycles + 2#64 := rfl
@[simp] theorem State.unknownOpcode_mem (s : State) (op : Byte) : (s.unknownOpcode op).mem = s.mem := rfl
@[simp] theorem State.unknownOpcode_diag (s : State) (op : Byte) : (s.unknownOpcode op).diag = s.diag ++ [.unknownOpcode op s.cpu.pc] := rfl

/-! ## Construction, and placing an instruction -/

@[simp] theorem State.construct_cpu (m : Memory) : (State.construct m).cpu = Cpu.zero := rfl
@[simp] theorem State.construct_mem (m : Memory) : (State.construct m).mem = m := rfl
@[simp] theorem State.construct_diag (m : Memory) : (State.construct m).diag = [] := rfl
@[simp] theorem State.placeAtPc_cpu (s : State) (bs : List Byte) : (s.placeAtPc bs).cpu = s.cpu := rfl
@[simp] theorem State.placeAtPc_mem (s : State) (bs : List Byte) : (s.placeAtPc bs).mem = s.mem.place s.cpu.pc bs := rfl
@[simp] theorem State.placeAtPc_diag (s : State) (bs : List Byte) : (s.placeAtPc bs).diag = s.diag := rfl

/-! ## Host writes (10_state.md R21) -/

@[simp] theorem State.hostWrite_diag (s : State) (w : HostWrite) : (s.hostWrite w).diag = s.diag := by cases w <;> rfl
@[simp] theorem State.hostWrite_byte (s : State) (a : Addr) (v : Byte) : s.hostWrite (.byte a v) = s.writeByte a v := rfl
@[simp] theorem State.hostWrite_a (s : State) (v : Byte) : s.hostWrite (.a v) = { s with cpu := { s.cpu with a := v } } := rfl
@[simp] theorem State.hostWrite_x (s : State) (v : Byte) : s.hostWrite (.x v) = { s with cpu := { s.cpu with x := v } } := rfl
@[simp] theorem State.hostWrite_y (s : State) (v : Byte) : s.hostWrite (.y v) = { s with cpu := { s.cpu with y := v } } := rfl
@[simp] theorem State.hostWrite_sp (s : State) (v : Byte) : s.hostWrite (.sp v) = { s with cpu := { s.cpu with sp := v } } := rfl
@[simp] theorem State.hostWrite_flags (s : State) (v : Byte) : s.hostWrite (.flags v) = { s with cpu := { s.cpu with flags := v } } := rfl
@[simp] theorem State.hostWrite_pc (s : State) (v : Addr) : s.hostWrite (.pc v) = { s with cpu := { s.cpu with pc := v } } := rfl
@[simp] theorem State.hostWrite_cycles (s : State) (v : Cycles) : s.hostWrite (.cycles v) = { s with cpu := { s.cpu with cycles := v } } := rfl

end Sys2Proof.Machine
end

