-- ==== Sys2Proof/Laws/Word.lean ====
section
/-! SUPPORT. The byte helpers and the effective addresses as numbers. -/

namespace Sys2Proof

@[simp] theorem toNat_zext16 (b : Byte) : (zext16 b).toNat = b.toNat := by
  have := b.isLt
  simp [zext16]; omega

@[simp] theorem toNat_concat16 (hi lo : Byte) : (concat16 hi lo).toNat = hi.toNat * 256 + lo.toNat := by
  have := hi.isLt
  have := lo.isLt
  simp [concat16]; omega

@[simp] theorem lowByte_concat16 (hi lo : Byte) : lowByte (concat16 hi lo) = lo := by
  apply BitVec.eq_of_toNat_eq
  have := lo.isLt
  simp only [lowByte, toNat_concat16, BitVec.toNat_ofNat]; omega

@[simp] theorem highByte_concat16 (hi lo : Byte) : highByte (concat16 hi lo) = hi := by
  apply BitVec.eq_of_toNat_eq
  have := lo.isLt
  have := hi.isLt
  simp only [highByte, toNat_concat16, BitVec.toNat_ofNat]; omega

@[simp] theorem concat16_highByte_lowByte (a : Addr) : concat16 (highByte a) (lowByte a) = a := by
  apply BitVec.eq_of_toNat_eq
  have := a.isLt
  simp [highByte, lowByte]; omega

namespace Machine

theorem toNat_eaZeroPage (zp8 : Byte) : (eaZeroPage zp8).toNat = zp8.toNat := toNat_zext16 zp8

theorem toNat_eaAbsolute (lo hi : Byte) : (eaAbsolute lo hi).toNat = hi.toNat * 256 + lo.toNat := toNat_concat16 hi lo

theorem toNat_eaZeroPageX (base8 x : Byte) : (eaZeroPageX base8 x).toNat = (base8.toNat + x.toNat) % 256 := by
  simp [eaZeroPageX]

theorem toNat_eaAbsoluteX (lo hi x : Byte) :
    (eaAbsoluteX lo hi x).toNat = (hi.toNat * 256 + lo.toNat + x.toNat) % 65536 := by
  simp [eaAbsoluteX, eaAbsolute]

end Machine

end Sys2Proof
end

