-- ==== Sys2Proof/Laws/Step.lean ====
section
/-! SUPPORT. What each meaning answers, and the one case lemma about a Step, which later proofs cite instead of unfolding. -/

namespace Sys2Proof.Machine

/-! ## The meanings -/

theorem exec_nop (s : State) : exec .nop s = .next (s.complete .nop) := rfl

theorem exec_ldaImm (imm8 : Byte) (s : State) :
    exec (.ldaImm imm8) s = .next ((s.setA imm8).complete .ldaImm) := rfl

theorem exec_ldaZp (zp8 : Byte) (s : State) :
    exec (.ldaZp zp8) s = .next ((s.setA (s.mem.read (zext16 zp8))).complete .ldaZp) := rfl

theorem exec_staAbs (abs16 : Addr) (s : State) :
    exec (.staAbs abs16) s = .next ((s.writeByte abs16 s.cpu.a).complete .staAbs) := rfl

theorem exec_incZpx (base8 : Byte) (s : State) :
    exec (.incZpx base8) s =
      .next ((s.writeByte (zext16 (base8 + s.cpu.x))
        (s.mem.read (zext16 (base8 + s.cpu.x)) + 1#8)).complete .incZpx) := rfl

theorem exec_unknown (op : Byte) (s : State) : exec (.unknown op) s = .next (s.unknownOpcode op) := rfl

/-! ## The instruction at PC -/

@[simp] theorem State.instrByte_zero (s : State) : s.instrByte 0 = s.mem.read s.cpu.pc := by
  simp [State.instrByte]

@[simp] theorem State.instrByte_one (s : State) : s.instrByte 1 = s.mem.read (s.cpu.pc + 1#16) := rfl

@[simp] theorem State.instrByte_two (s : State) : s.instrByte 2 = s.mem.read (s.cpu.pc + 2#16) := rfl

/-- The one case lemma about a Step: the opcode at PC, the instruction read, and the next state. -/
theorem step_cases (s : State) :
    (s.mem.read s.cpu.pc = 0x00#8 ∧ s.fetch = .nop ∧ step s = .next (s.complete .nop)) ∨
    (s.mem.read s.cpu.pc = 0x01#8 ∧ s.fetch = .ldaImm (s.mem.read (s.cpu.pc + 1#16)) ∧
      step s = .next ((s.setA (s.mem.read (s.cpu.pc + 1#16))).complete .ldaImm)) ∨
    (s.mem.read s.cpu.pc = 0x02#8 ∧ s.fetch = .ldaZp (s.mem.read (s.cpu.pc + 1#16)) ∧
      step s = .next ((s.setA (s.mem.read (zext16 (s.mem.read (s.cpu.pc + 1#16))))).complete .ldaZp)) ∨
    (s.mem.read s.cpu.pc = 0x03#8 ∧
      s.fetch = .staAbs (concat16 (s.mem.read (s.cpu.pc + 2#16)) (s.mem.read (s.cpu.pc + 1#16))) ∧
      step s = .next ((s.writeByte (concat16 (s.mem.read (s.cpu.pc + 2#16)) (s.mem.read (s.cpu.pc + 1#16))) s.cpu.a).complete
        .staAbs)) ∨
    (s.mem.read s.cpu.pc = 0x04#8 ∧ s.fetch = .incZpx (s.mem.read (s.cpu.pc + 1#16)) ∧
      step s = .next ((s.writeByte (zext16 (s.mem.read (s.cpu.pc + 1#16) + s.cpu.x))
        (s.mem.read (zext16 (s.mem.read (s.cpu.pc + 1#16) + s.cpu.x)) + 1#8)).complete .incZpx)) ∨
    (5 ≤ (s.mem.read s.cpu.pc).toNat ∧ s.fetch = .unknown (s.mem.read s.cpu.pc) ∧
      step s = .next (s.unknownOpcode (s.mem.read s.cpu.pc))) := by
  have fetched : decodeFrom s.instrByte = s.fetch := rfl
  have key := decodeFrom_cases s.instrByte
  simp only [State.instrByte_zero, State.instrByte_one, State.instrByte_two, fetched] at key
  rcases key with ⟨h0, h⟩ | ⟨h0, h⟩ | ⟨h0, h⟩ | ⟨h0, h⟩ | ⟨h0, h⟩ | ⟨h0, h⟩
  · exact .inl ⟨h0, h, by rw [step, h, exec_nop]⟩
  · exact .inr (.inl ⟨h0, h, by rw [step, h, exec_ldaImm]⟩)
  · exact .inr (.inr (.inl ⟨h0, h, by rw [step, h, exec_ldaZp]⟩))
  · exact .inr (.inr (.inr (.inl ⟨h0, h, by rw [step, h, exec_staAbs]⟩)))
  · exact .inr (.inr (.inr (.inr (.inl ⟨h0, h, by rw [step, h, exec_incZpx]⟩))))
  · exact .inr (.inr (.inr (.inr (.inr ⟨h0, h, by rw [step, h, exec_unknown]⟩))))

/-- The opcode of the instruction at PC is the byte there. -/
@[simp] theorem State.fetch_opcode (s : State) : s.fetch.opcode = s.mem.read s.cpu.pc := by
  rw [State.fetch, decodeFrom_opcode, State.instrByte_zero]

/-! ## Runs -/

theorem core_run_zero (s : State) : core.run 0 s = .next s := rfl

/-- A run takes its first Step and goes on. -/
theorem core_run_succ {s t : State} (k : Nat) (h : step s = .next t) : core.run (k + 1) s = core.run k t := by
  have h' : core.step s = .next t := h
  simp only [Host.Core.run, h']

end Sys2Proof.Machine
end

