-- ==== Sys2Proof/Tests/Slice0.lean ====
section
/-! SUPPORT. Tests on the vectors of 95_test_vectors.md (named in each comment) and on words written out from 30_encoding.md, and a witness for the hypotheses of each obligation that has any. -/

namespace Sys2Proof.Tests

open Sys2Proof.Machine

/-- A state with these registers and bytes, every other byte unlisted. -/
def stateOf (cpu : Cpu) (cells : List (Addr × Byte)) : State :=
  { cpu := cpu, mem := cells.foldl (fun m c => m.write c.1 c.2) [], diag := [] }

/-- Zero registers but for PC. -/
def cpuAt (pc : Addr) : Cpu := { Cpu.zero with pc := pc }

/-- The state after one Step, where there is one. -/
def after (s : State) : Option State :=
  match step s with
  | .next t => some t
  | .fault _ => none
  | .refused _ => none

/-! ## Well-formedness: the one check refuses -/

theorem test_unknown_of_table_opcode_is_ill_formed : (Instr.unknown 0x04#8).wf = false := by decide
theorem test_unknown_lowest_is_well_formed : (Instr.unknown 0x05#8).wf = true := by decide

/-! ## Decoding: every constructor's word, written out from R43, R45 and R51 -/

theorem test_decode_nop : decode [0b00000000#8] = .ok (.nop, []) := by decide
theorem test_decode_ldaImm : decode [0b00000001#8, 0x42#8] = .ok (.ldaImm 0x42#8, []) := by decide
theorem test_decode_ldaZp : decode [0b00000010#8, 0x80#8] = .ok (.ldaZp 0x80#8, []) := by decide
theorem test_decode_staAbs : decode [0b00000011#8, 0x00#8, 0x30#8] = .ok (.staAbs 0x3000#16, []) := by decide
theorem test_decode_incZpx : decode [0b00000100#8, 0x10#8] = .ok (.incZpx 0x10#8, []) := by decide
theorem test_decode_lowest_unknown : decode [0b00000101#8, 0x01#8] = .ok (.unknown 0x05#8, [0x01#8]) := by decide
theorem test_decode_highest_unknown : decode [0b11111111#8] = .ok (.unknown 0xFF#8, []) := by decide
theorem test_decode_rejects_missing_operand :
    decode [0b00000011#8, 0x00#8] = .error (.missingOperand 0x03#8) := by decide
theorem test_decode_rejects_empty : decode [] = .error .noOpcode := by decide
theorem test_encode_staAbs_low_byte_first : encode (.staAbs 0x1234#16) = [0x03#8, 0x34#8, 0x12#8] := by decide
theorem test_tableWord_staAbs : decodeTableWord 24 0x123403 = some (.staAbs 0x1234#16) := by decide
theorem test_tableWord_high_bits_zero : decodeTableWord 8 0x1201 = some (.ldaImm 0x00#8) := by decide

/-! ## One Step -/

/-- N2 -/
theorem test_nop_wraps_pc :
    (after (stateOf { cpuAt 0xFFFF#16 with cycles := 7#64 } [(0xFFFF#16, 0x00#8)])).map
      (fun t => (t.cpu.pc, t.cpu.cycles)) = some (0x0000#16, 9#64) := by decide

/-- S5 -/
theorem test_nop_wraps_cycles :
    (after (stateOf { cpuAt 0x0100#16 with cycles := 0xFFFFFFFFFFFFFFFF#64 } [])).map
      (fun t => (t.cpu.pc, t.cpu.cycles)) = some (0x0101#16, 1#64) := by decide

/-- L2 -/
theorem test_ldaImm_bit7_sets_no_flag :
    (after (stateOf (cpuAt 0x0200#16) [(0x0200#16, 0x01#8), (0x0201#16, 0x80#8)])).map
      (fun t => (t.cpu.a, t.cpu.flags, t.cpu.pc, t.cpu.cycles)) = some (0x80#8, 0x00#8, 0x0202#16, 2#64) := by decide

/-- L3 -/
theorem test_ldaImm_operand_at_zero :
    (after (stateOf (cpuAt 0xFFFF#16) [(0xFFFF#16, 0x01#8), (0x0000#16, 0x3C#8)])).map
      (fun t => (t.cpu.a, t.cpu.pc)) = some (0x3C#8, 0x0001#16) := by decide

/-- L4 -/
theorem test_ldaZp_highest_address :
    (after (stateOf (cpuAt 0x0300#16) [(0x0300#16, 0x02#8), (0x0301#16, 0xFF#8), (0x00FF#16, 0xEE#8)])).map
      (fun t => (t.cpu.a, t.cpu.pc, t.cpu.cycles)) = some (0xEE#8, 0x0302#16, 3#64) := by decide

/-- L5 -/
theorem test_ldaZp_own_operand :
    (after (stateOf (cpuAt 0x0010#16) [(0x0010#16, 0x02#8), (0x0011#16, 0x11#8)])).map
      (fun t => t.cpu.a) = some 0x11#8 := by decide

/-- L9 -/
theorem test_staAbs_overwrites_own_opcode :
    (after (stateOf (cpuAt 0x0200#16) [(0x0200#16, 0x03#8), (0x0202#16, 0x02#8)])).map
      (fun t => (t.mem.read 0x0200#16, t.cpu.pc, t.cpu.cycles)) = some (0x00#8, 0x0203#16, 4#64) := by decide

/-- L10 -/
theorem test_staAbs_across_the_top :
    (after (stateOf { cpuAt 0xFFFE#16 with a := 0x99#8 } [(0xFFFE#16, 0x03#8), (0x0000#16, 0x40#8)])).map
      (fun t => (t.mem.read 0x4000#16, t.cpu.pc)) = some (0x99#8, 0x0001#16) := by decide

/-- W4 -/
theorem test_incZpx_wraps_in_zero_page :
    (after (stateOf { cpuAt 0x0400#16 with x := 0x01#8 }
        [(0x0400#16, 0x04#8), (0x0401#16, 0xFF#8), (0x0000#16, 0x09#8)])).map
      (fun t => (t.mem.read 0x0000#16, t.mem.read 0x0100#16, t.cpu.cycles)) = some (0x0A#8, 0x00#8, 6#64) := by
  decide

/-- W6 -/
theorem test_incZpx_changes_next_opcode :
    (after (stateOf { cpuAt 0x0010#16 with x := 0x10#8 }
        [(0x0010#16, 0x04#8), (0x0011#16, 0x02#8), (0x0012#16, 0xFF#8)])).map
      (fun t => (t.fetch, t.cpu.pc, t.cpu.flags)) = some (.nop, 0x0012#16, 0x00#8) := by decide

/-- S2 -/
theorem test_unknown_wraps_pc :
    (after (stateOf (cpuAt 0xFFFF#16) [(0xFFFF#16, 0xFF#8)])).map
      (fun t => (t.cpu.pc, t.cpu.cycles, t.diag)) =
        some (0x0000#16, 2#64, [.unknownOpcode 0xFF#8 0xFFFF#16]) := by decide

/-- S3 -/
theorem test_unknown_real_6502_lda :
    (after (stateOf (cpuAt 0x1000#16) [(0x1000#16, 0xA9#8), (0x1001#16, 0x42#8)])).map
      (fun t => (t.cpu.a, t.cpu.pc, t.fetch, t.diag)) =
        some (0x00#8, 0x1001#16, .unknown 0x42#8, [.unknownOpcode 0xA9#8 0x1000#16]) := by decide

theorem test_withFetchWord_runs :
    (after (State.reset.withFetchWord 16 0x4201)).map (fun t => (t.cpu.a, t.cpu.pc)) =
      some (0x42#8, 0x0002#16) := by decide

/-! ## The resolver and the engine -/

/-- The address and the PC a resolver leaves on RAM64K, PC on entry after the opcode. -/
def resolved (m : Mode) (cpu : Cpu) (cells : List (Addr × Byte)) : Option (Addr × Addr) :=
  match resolve ram64k m (stateOf cpu cells).toEngine with
  | .ok (ea, e) => some (ea, e.cpu.pc)
  | .error _ => none

/-- M13 -/
theorem test_zeroPageX_both_ff :
    resolved .zeroPageX { cpuAt 0x0401#16 with x := 0xFF#8 } [(0x0401#16, 0xFF#8)] =
      some (0x00FE#16, 0x0402#16) := by decide

/-- M16 -/
theorem test_absoluteX_carries :
    resolved .absoluteX { cpuAt 0x0501#16 with x := 0x01#8 } [(0x0501#16, 0xFF#8), (0x0502#16, 0x12#8)] =
      some (0x1300#16, 0x0503#16) := by decide

/-- M18 -/
theorem test_absoluteX_wraps :
    resolved .absoluteX { cpuAt 0x0501#16 with x := 0xFF#8 } [(0x0501#16, 0xFF#8), (0x0502#16, 0xFF#8)] =
      some (0x00FE#16, 0x0503#16) := by decide

/-- P1, the second Step's accesses: R(0202) R(0203) R(0204) W(3000,42). -/
theorem test_access_list_of_staAbs :
    (match stepOn (recordingBus ram64k)
        { cpu := { cpuAt 0x0202#16 with a := 0x42#8 },
          bus := ((stateOf Cpu.zero [(0x0202#16, 0x03#8), (0x0204#16, 0x30#8)]).mem, []), diag := [] } with
      | .ok e => some e.bus.2
      | .error _ => none) =
      some [.read 0x0202#16, .read 0x0203#16, .read 0x0204#16, .write 0x3000#16 0x42#8] := by decide

/-- R84: with the operand and the written address both faulting, the operand read is the fault reported. -/
theorem test_first_fault_is_reported :
    (match stepOn (faultingBus (fun x => x.addr = 0x0001#16 || x.addr = 0x0005#16) ram64k)
        (stateOf Cpu.zero [(0x0000#16, 0x04#8), (0x0001#16, 0x05#8)]).toEngine with
      | .ok _ => none
      | .error f => some f) = some (.busFault 0x0001#16 .read) := by decide

/-- P4: the placement wraps. -/
theorem test_assemble_wraps :
    (assemble [] 0x0000#16 [.org 0xFFFE, .staAbs 0x4000, .ldaImm 7]).map
      (fun m => [m.read 0xFFFE#16, m.read 0x0000#16, m.read 0x0001#16, m.read 0x0002#16]) =
      some [0x03#8, 0x40#8, 0x01#8, 0x07#8] := by decide

/-! ## Witnesses: a concrete input that meets the hypotheses of each obligation that has any -/

theorem witness_DispatchTableHasFiveEntries : 5 ≤ (0x05#8 : Byte).toNat := by decide

theorem witness_OpcodeAloneSelectsInstruction :
    (5 ≤ (0xFF#8 : Byte).toNat) ∧
    ∀ k, k < lengthOf 0x01#8 → (if k = 0 then 0x01#8 else if k = 1 then 0x42#8 else 0x00#8 : Byte)
      = (if k = 0 then 0x01#8 else if k = 1 then 0x42#8 else 0xFF#8) := by decide

theorem witness_DecodeOfEncode : (Instr.staAbs 0xFFFF#16).wf = true ∧ (Instr.unknown 0x05#8).wf = true := by decide

theorem witness_EncodeOfDecode :
    decode [0x03#8, 0x34#8, 0x12#8, 0xEE#8] = .ok (.staAbs 0x1234#16, [0xEE#8]) := by decide

theorem witness_StepRunsTheInstructionAtPc :
    (Instr.staAbs 0x4000#16).wf = true ∧
    ∀ (k : Nat) (h : k < (encode (.staAbs 0x4000#16)).length),
      (stateOf (cpuAt 0xFFFE#16) [(0xFFFE#16, 0x03#8), (0x0000#16, 0x40#8)]).mem.read
        ((0xFFFE#16 : Addr) + BitVec.ofNat 16 k) = (encode (.staAbs 0x4000#16))[k] := by decide

theorem witness_StoredTableWordIsWhatRuns :
    decodeTableWord 16 0x1004 = some (.incZpx 0x10#8) ∧
    (0x0005#16 : Addr) ≠ 0x0000#16 ∧ (0x0005#16 : Addr) ≠ 0x0001#16 ∧ (0x0005#16 : Addr) ≠ 0x0002#16 := by decide

/-- A state with the bytes of one instruction at 0x0010. -/
def oneInstr (bytes : List Byte) : State := (stateOf (cpuAt 0x0010#16) []).placeAtPc bytes

theorem witness_NopChangesPcAndCyclesOnly : (oneInstr [0x00#8]).mem.read 0x0010#16 = 0x00#8 := by decide

theorem witness_LdaImmLoadsItsOperand :
    (oneInstr [0x01#8, 0x80#8]).mem.read 0x0010#16 = 0x01#8 ∧
    (oneInstr [0x01#8, 0x80#8]).mem.read 0x0011#16 = 0x80#8 := by decide

theorem witness_LdaZpLoadsFromZeroPage :
    (oneInstr [0x02#8, 0xFF#8]).mem.read 0x0010#16 = 0x02#8 ∧
    (oneInstr [0x02#8, 0xFF#8]).mem.read 0x0011#16 = 0xFF#8 := by decide

theorem witness_StaAbsStoresAccumulator :
    (oneInstr [0x03#8, 0xFF#8, 0xFF#8]).mem.read 0x0010#16 = 0x03#8 ∧
    (oneInstr [0x03#8, 0xFF#8, 0xFF#8]).mem.read 0x0011#16 = 0xFF#8 ∧
    (oneInstr [0x03#8, 0xFF#8, 0xFF#8]).mem.read 0x0012#16 = 0xFF#8 := by decide

theorem witness_IncZpxIncrementsOneByte :
    (oneInstr [0x04#8, 0x05#8]).mem.read 0x0010#16 = 0x04#8 ∧
    (oneInstr [0x04#8, 0x05#8]).mem.read 0x0011#16 = 0x05#8 := by decide

theorem witness_UnknownOpcodeFallsBack :
    5 ≤ (0x05#8 : Byte).toNat ∧ (oneInstr [0x05#8]).mem.read 0x0010#16 = 0x05#8 := by decide

/-- The opcode clauses of OnlyLoadsWriteAccumulator, NextPcIsFetchAddressPlusLength, OnlyStaAbsWritesOutsideZeroPage:
one state for each opcode class. -/
theorem witness_opcode_clauses :
    (oneInstr [0x00#8]).mem.read (oneInstr [0x00#8]).cpu.pc = 0x00#8 ∧
    (oneInstr [0x01#8]).mem.read (oneInstr [0x01#8]).cpu.pc = 0x01#8 ∧
    (oneInstr [0x02#8]).mem.read (oneInstr [0x02#8]).cpu.pc = 0x02#8 ∧
    (oneInstr [0x03#8]).mem.read (oneInstr [0x03#8]).cpu.pc = 0x03#8 ∧
    (oneInstr [0x04#8]).mem.read (oneInstr [0x04#8]).cpu.pc = 0x04#8 ∧
    5 ≤ ((oneInstr [0x05#8]).mem.read (oneInstr [0x05#8]).cpu.pc).toNat := by decide

/-- A byte outside the zero page and its boundary. -/
theorem witness_OnlyStaAbsWritesOutsideZeroPage :
    256 ≤ (0x0100#16 : Addr).toNat ∧ (oneInstr [0x04#8]).mem.read (oneInstr [0x04#8]).cpu.pc ≠ 0x03#8 := by decide

/-- A bus with side effects: its n-th read answers n, whatever the address. -/
def countingBus : Bus Nat where
  read n _ := some (BitVec.ofNat 8 n, n + 1)
  write n _ _ := some n

/-- The engine on that bus whose next opcode is `op`, with X = 0x10 and A = 0x99. -/
def counting (op : Nat) : Engine Nat :=
  { cpu := { cpuAt 0xFFFE#16 with x := 0x10#8, a := 0x99#8 }, bus := op, diag := [] }

theorem witness_CyclesAddedDependOnOpcodeAlone :
    { cpuAt 0x0000#16 with cycles := 0xFFFFFFFFFFFFFFF9#64 }.cycles.toNat + 6 < 2 ^ 64 ∧
    (counting 4).cpu.cycles.toNat + 6 < 2 ^ 64 ∧
    countingBus.read (counting 4).bus (counting 4).cpu.pc = some (0x04#8, 5) ∧
    ∃ e', stepOn countingBus (counting 4) = .ok e' ∧ e'.cpu.cycles = 6#64 :=
  ⟨by decide, by decide, rfl, _, rfl, rfl⟩

/-- One completed Step for each opcode class, on a bus with side effects. -/
theorem witness_StepOnAnyBusWritesItsRegisters :
    (∀ op ∈ [0, 1, 2, 3, 4, 5, 255],
      countingBus.read (counting op).bus (counting op).cpu.pc = some (BitVec.ofNat 8 op, op + 1)) ∧
    (∃ e', stepOn countingBus (counting 0) = .ok e' ∧ e'.cpu.pc = 0xFFFF#16) ∧
    (∃ e', stepOn countingBus (counting 1) = .ok e' ∧ e'.cpu.a = 0x02#8) ∧
    (∃ e', stepOn countingBus (counting 2) = .ok e' ∧ e'.cpu.a = 0x04#8) ∧
    (∃ e', stepOn countingBus (counting 3) = .ok e' ∧ e'.cpu.pc = 0x0001#16) ∧
    (∃ e', stepOn countingBus (counting 4) = .ok e' ∧ e'.cpu.pc = 0x0000#16) ∧
    (∃ e', stepOn countingBus (counting 5) = .ok e' ∧ e'.diag = [.unknownOpcode 0x05#8 0xFFFE#16]) ∧
    (∃ e', stepOn countingBus (counting 255) = .ok e' ∧ e'.diag = [.unknownOpcode 0xFF#8 0xFFFE#16]) :=
  ⟨by decide, ⟨_, rfl, rfl⟩, ⟨_, rfl, rfl⟩, ⟨_, rfl, rfl⟩, ⟨_, rfl, rfl⟩, ⟨_, rfl, rfl⟩, ⟨_, rfl, rfl⟩, ⟨_, rfl, rfl⟩⟩

/-- STA_ABS at 0x0010 that stores to 0x0013, and the INC_ZPX of W6, at 0x0010 with X = 0x10, that increments 0x0012. -/
theorem witness_WriteToNextOpcodeIsFetched :
    (∃ s : State, s.mem.read s.cpu.pc = 0x03#8 ∧
      eaAbsolute (s.mem.read (s.cpu.pc + 1#16)) (s.mem.read (s.cpu.pc + 2#16)) = s.cpu.pc + 3#16) ∧
    (∃ s : State, s.mem.read s.cpu.pc = 0x04#8 ∧
      eaZeroPageX (s.mem.read (s.cpu.pc + 1#16)) s.cpu.x = s.cpu.pc + 2#16) :=
  ⟨⟨oneInstr [0x03#8, 0x13#8, 0x00#8], by decide⟩,
    ⟨(oneInstr [0x04#8, 0x02#8, 0xFF#8]).hostWrite (.x 0x10#8), by decide⟩⟩

/-- Two states that differ in everything SameInputs leaves free. -/
theorem witness_RunsDependOnInputsAlone :
    SameInputs (oneInstr [0x05#8])
      { oneInstr [0x05#8] with
        cpu := { (oneInstr [0x05#8]).cpu with y := 0x11#8, sp := 0x22#8, flags := 0x33#8, cycles := 44#64 },
        diag := [.unknownOpcode 0x55#8 0x6666#16] } :=
  ⟨rfl, rfl, rfl, fun _ => rfl⟩

theorem witness_CyclesRiseWithinBounds : State.reset.cpu.cycles.toNat + 6 * 1000 < 2 ^ 64 := by decide

theorem witness_SameContentsSameMemory :
    Memory.wf [(3, 0x01#8), (65535, 0x02#8)] = true ∧ Memory.wf [(3, 0x00#8)] = false ∧
    Memory.wf [(3, 0x01#8), (3, 0x02#8)] = false ∧ Memory.wf [(65536, 0x01#8)] = false := by decide

theorem witness_PlacedBytesAreReadBack : [0x01#8, 0x02#8].length ≤ 65536 ∧ 1 < [0x01#8, 0x02#8].length := by decide

theorem witness_RegistersAreZeroAtConstruction :
    State.construct [(0, 0x05#8)] = State.reset ∨ ∃ mem0, State.construct [(0, 0x05#8)] = State.construct mem0 :=
  .inr ⟨_, rfl⟩

theorem witness_StepKeepsInvariant :
    (oneInstr [0x05#8]).mem.wf = true ∧
    step (oneInstr [0x05#8]) = .next ((oneInstr [0x05#8]).unknownOpcode 0x05#8) := by
  exact ⟨by decide, rfl⟩

theorem witness_SessionsCompleteAndKeepInvariant : (oneInstr [0x04#8, 0x05#8]).mem.wf = true := by decide

/-- The Step on the instruction with these bytes at 0x0010, where only that access faults. -/
def faultAt (bytes : List Byte) (x : Access) : Except Fault (Engine Memory) :=
  stepOn (faultingBus (fun y => y.addr = x.addr && y.kind = x.kind) ram64k) (oneInstr bytes).toEngine

/-- A fault at each access of each instruction. -/
theorem witness_OnlyTheBusFaults :
    faultAt [0x00#8] (.read 0x0010#16) = .error (.busFault 0x0010#16 .read) ∧
    faultAt [0x01#8, 0x80#8] (.read 0x0011#16) = .error (.busFault 0x0011#16 .read) ∧
    faultAt [0x02#8, 0x80#8] (.read 0x0080#16) = .error (.busFault 0x0080#16 .read) ∧
    faultAt [0x03#8, 0x34#8, 0x12#8] (.read 0x0012#16) = .error (.busFault 0x0012#16 .read) ∧
    faultAt [0x03#8, 0x34#8, 0x12#8] (.write 0x1234#16 0x00#8) = .error (.busFault 0x1234#16 .write) ∧
    faultAt [0x04#8, 0xFF#8] (.read 0x00FF#16) = .error (.busFault 0x00FF#16 .read) ∧
    faultAt [0x04#8, 0xFF#8] (.write 0x00FF#16 0x00#8) = .error (.busFault 0x00FF#16 .write) :=
  ⟨rfl, rfl, rfl, rfl, rfl, rfl, rfl⟩

/-- The accesses of one Step on the bus with side effects, where it completes, from R31's rows with the operand bytes
the bus answers: op + 1, then op + 2. -/
theorem witness_AccessKindsOnAnyBus :
    (∀ op ∈ [0, 1, 2, 3, 4, 5], countingBus.read (counting op).bus (counting op).cpu.pc =
      some (BitVec.ofNat 8 op, op + 1)) ∧
    (∀ r ∈ [(0, [Access.read 0xFFFE#16]),
        (1, [.read 0xFFFE#16, .read 0xFFFF#16]),
        (2, [.read 0xFFFE#16, .read 0xFFFF#16, .read 0x0003#16]),
        (3, [.read 0xFFFE#16, .read 0xFFFF#16, .read 0x0000#16, .write 0x0504#16 0x99#8]),
        (4, [.read 0xFFFE#16, .read 0xFFFF#16, .read 0x0015#16, .write 0x0015#16 0x07#8]),
        (5, [.read 0xFFFE#16])],
      (match stepOn (recordingBus countingBus)
          { cpu := (counting r.1).cpu, bus := (r.1, []), diag := [] } with
        | .ok e => some e.bus.2
        | .error _ => none) = some r.2) := by decide

theorem witness_ResolverWritesPcOnly :
    resolve ram64k .zeroPage (Engine.construct [(0, 0x80#8)]) =
      .ok (0x0080#16, { cpu := cpuAt 0x0001#16, bus := [(0, 0x80#8)], diag := [] }) := rfl

theorem witness_ExecutePhaseWritesOnlyWhatItsRuleNames :
    execute ram64k .loadA 0x0000#16 (Engine.construct [(0, 0x80#8)]) =
      .ok { cpu := { Cpu.zero with a := 0x80#8 }, bus := [(0, 0x80#8)], diag := [] } ∧
    execute ram64k .storeA 0x0000#16 (Engine.construct [(0, 0x80#8)]) =
      .ok { cpu := Cpu.zero, bus := [], diag := [] } ∧
    execute ram64k .increment 0x0000#16 (Engine.construct [(0, 0x80#8)]) =
      .ok { cpu := Cpu.zero, bus := [(0, 0x81#8)], diag := [] } ∧
    execute ram64k .skip 0x0000#16 (Engine.construct [(0, 0x80#8)]) = .ok (Engine.construct [(0, 0x80#8)]) := by
  exact ⟨rfl, rfl, rfl, rfl⟩

theorem witness_HostWriteIsSeenByNextStep : 5 ≤ (0xFF#8 : Byte).toNat ∧ (0x00#8 : Byte) = 0x00#8 := by decide

theorem witness_NotationLinesAreSingleInstructions :
    256 ≤ 256 ∧ 65536 ≤ 65536 ∧ 255 < 256 ∧ 65535 < 65536 := by decide

/-- A program refused, a program placed before another, and the lines after `.org 0xFFFF`. -/
theorem witness_ProgramLinesArePlacedInOrder :
    (∃ l ∈ [AsmLine.nop, .ldaImm 256], l.bytes = none) ∧
    (∃ m1, assemble [] 0x0000#16 [.ldaImm 7, .nop] = some m1) ∧
    (0xFFFF < 65536 ∧ (∀ l ∈ [AsmLine.staAbs 0x1234, .byte 0xFF], l.inRange = true ∧ ∀ x, l ≠ .org x) ∧
      ([AsmLine.staAbs 0x1234, .byte 0xFF].flatMap AsmLine.rawBytes).length ≤ 65536) :=
  ⟨⟨.ldaImm 256, by decide, by decide⟩, ⟨_, rfl⟩, by decide,
    by simp [AsmLine.inRange], by decide⟩

end Sys2Proof.Tests
end

/-! # What every Step does, and the state family (10_state.md)

The facts about a Step that hold for all opcodes come first, each read off `step_cases` through one inversion lemma;
the statements about the state's registers, cycle count and invariant follow from them. -/

namespace Sys2Proof.Machine

/-! ## A Step completes, and what it can do -/

/-- R64: the engine has no stop of its own. -/
theorem step_completes (s : State) : ∃ t, step s = .next t := by
  rcases step_cases s with ⟨-, -, h⟩ | ⟨-, -, h⟩ | ⟨-, -, h⟩ | ⟨-, -, h⟩ | ⟨-, -, h⟩ | ⟨-, -, h⟩ <;>
    exact ⟨_, h⟩

/-- The inversion of a Step: the opcode at PC and the state it leads to. -/
theorem step_next_cases {s t : State} (h : step s = .next t) :
    (s.mem.read s.cpu.pc = 0x00#8 ∧ t = s.complete .nop) ∨
    (s.mem.read s.cpu.pc = 0x01#8 ∧ t = (s.setA (s.mem.read (s.cpu.pc + 1#16))).complete .ldaImm) ∨
    (s.mem.read s.cpu.pc = 0x02#8 ∧
      t = (s.setA (s.mem.read (eaZeroPage (s.mem.read (s.cpu.pc + 1#16))))).complete .ldaZp) ∨
    (s.mem.read s.cpu.pc = 0x03#8 ∧
      t = (s.writeByte (eaAbsolute (s.mem.read (s.cpu.pc + 1#16)) (s.mem.read (s.cpu.pc + 2#16))) s.cpu.a).complete
        .staAbs) ∨
    (s.mem.read s.cpu.pc = 0x04#8 ∧
      t = (s.writeByte (eaZeroPageX (s.mem.read (s.cpu.pc + 1#16)) s.cpu.x)
        (s.mem.read (eaZeroPageX (s.mem.read (s.cpu.pc + 1#16)) s.cpu.x) + 1#8)).complete .incZpx) ∨
    (5 ≤ (s.mem.read s.cpu.pc).toNat ∧ t = s.unknownOpcode (s.mem.read s.cpu.pc)) := by
  have eq_of_step {u : State} (hu : step s = .next u) : t = u := Host.Outcome.next.inj (h.symm.trans hu)
  rcases step_cases s with ⟨op, -, hs⟩ | ⟨op, -, hs⟩ | ⟨op, -, hs⟩ | ⟨op, -, hs⟩ | ⟨op, -, hs⟩ | ⟨op, -, hs⟩
  · exact .inl ⟨op, eq_of_step hs⟩
  · exact .inr (.inl ⟨op, eq_of_step hs⟩)
  · exact .inr (.inr (.inl ⟨op, eq_of_step hs⟩))
  · exact .inr (.inr (.inr (.inl ⟨op, eq_of_step hs⟩)))
  · exact .inr (.inr (.inr (.inr (.inl ⟨op, eq_of_step hs⟩))))
  · exact .inr (.inr (.inr (.inr (.inr ⟨op, eq_of_step hs⟩))))

/-! ## The registers no instruction writes (R12 to R15), and A (R11) -/

/-- No Step writes X, Y, SP or FLAGS. -/
theorem step_keeps_x_y_sp_flags {s t : State} (h : step s = .next t) :
    t.cpu.x = s.cpu.x ∧ t.cpu.y = s.cpu.y ∧ t.cpu.sp = s.cpu.sp ∧ t.cpu.flags = s.cpu.flags := by
  rcases step_next_cases h with ⟨-, rfl⟩ | ⟨-, rfl⟩ | ⟨-, rfl⟩ | ⟨-, rfl⟩ | ⟨-, rfl⟩ | ⟨-, rfl⟩ <;> simp

/-- A after a Step, by the opcode at PC. -/
theorem step_accumulator {s t : State} (h : step s = .next t) :
    t.cpu.a = if s.mem.read s.cpu.pc = 0x01#8 then s.mem.read (s.cpu.pc + 1#16)
      else if s.mem.read s.cpu.pc = 0x02#8 then s.mem.read (eaZeroPage (s.mem.read (s.cpu.pc + 1#16)))
      else s.cpu.a := by
  rcases step_next_cases h with ⟨op, rfl⟩ | ⟨op, rfl⟩ | ⟨op, rfl⟩ | ⟨op, rfl⟩ | ⟨op, rfl⟩ | ⟨op, rfl⟩
  case inr.inr.inr.inr.inr =>
    have not_ldaImm : s.mem.read s.cpu.pc ≠ 0x01#8 := by bv_omega
    have not_ldaZp : s.mem.read s.cpu.pc ≠ 0x02#8 := by bv_omega
    simp [not_ldaImm, not_ldaZp]
  all_goals simp [op]

/-! ## The load at PC, by the opcode there (R45, R47) -/

theorem fetch_of_ldaImm {s : State} (op : s.mem.read s.cpu.pc = 0x01#8) :
    s.fetch = .ldaImm (s.mem.read (s.cpu.pc + 1#16)) := by
  simp [State.fetch, decodeFrom, op]

theorem fetch_of_ldaZp {s : State} (op : s.mem.read s.cpu.pc = 0x02#8) :
    s.fetch = .ldaZp (s.mem.read (s.cpu.pc + 1#16)) := by
  simp [State.fetch, decodeFrom, op]

/-! ## The same Step with another value in A -/

/-- The instruction read does not depend on A. -/
@[simp] theorem State.fetch_setA (s : State) (v : Byte) : (s.setA v).fetch = s.fetch := rfl

/-- A load overwrites A, so its Step does not see the value A had. -/
theorem step_setA_of_load {s : State} (v : Byte)
    (load : s.mem.read s.cpu.pc = 0x01#8 ∨ s.mem.read s.cpu.pc = 0x02#8) : step (s.setA v) = step s := by
  rcases load with op | op
  · simp only [step, State.fetch_setA, fetch_of_ldaImm op, exec_ldaImm]; rfl
  · simp only [step, State.fetch_setA, fetch_of_ldaZp op, exec_ldaZp]; rfl

/-- A Step that is neither a load nor the store carries the value in A along unread. -/
theorem step_setA_of_not_load_not_store {s t : State} (v : Byte) (h : step s = .next t)
    (load : ¬(s.mem.read s.cpu.pc = 0x01#8 ∨ s.mem.read s.cpu.pc = 0x02#8)) (store : s.mem.read s.cpu.pc ≠ 0x03#8) :
    step (s.setA v) = .next (t.setA v) := by
  rcases step_cases s with ⟨-, fetched, -⟩ | ⟨op, -, -⟩ | ⟨op, -, -⟩ | ⟨op, -, -⟩ | ⟨-, fetched, -⟩ | ⟨-, fetched, -⟩
  case inr.inl => exact absurd (.inl op) load
  case inr.inr.inl => exact absurd (.inr op) load
  case inr.inr.inr.inl => exact absurd op store
  all_goals
    rw [step, fetched] at h
    rw [step, State.fetch_setA, fetched]
    cases h
    rfl

/-- Settles O14: A by the opcode is `step_accumulator`; with another value in A, a load's Step is the same Step and
every other but the store's carries the value along. -/
theorem onlyLoadsWriteAccumulator : Obligations.OnlyLoadsWriteAccumulator := by
  intro s
  obtain ⟨t, ht⟩ := step_completes s
  obtain ⟨-, -, -, flags_kept⟩ := step_keeps_x_y_sp_flags ht
  refine ⟨t, ht, flags_kept, fun op => ?_, fun op => ?_, fun not_ldaImm not_ldaZp => ?_, fun store v => ?_⟩
  · simp [step_accumulator ht, op]
  · simp [step_accumulator ht, op]
  · simp [step_accumulator ht, not_ldaImm, not_ldaZp]
  · by_cases load : s.mem.read s.cpu.pc = 0x01#8 ∨ s.mem.read s.cpu.pc = 0x02#8
    · exact ⟨t, (step_setA_of_load v load).trans ht, rfl, rfl, rfl, (if_pos load).symm⟩
    · exact ⟨t.setA v, step_setA_of_not_load_not_store v ht load store, rfl, rfl, rfl, (if_neg load).symm⟩

/-! ## The same Step with other values in Y, SP and FLAGS (R13 to R15) -/

/-- The state with these values in the three registers that no rule reads. -/
def State.withYSpFlags (s : State) (y sp flags : Byte) : State :=
  { s with cpu := { s.cpu with y := y, sp := sp, flags := flags } }

/-- The instruction read does not depend on Y, SP or FLAGS. -/
@[simp] theorem State.fetch_withYSpFlags (s : State) (y sp flags : Byte) :
    (s.withYSpFlags y sp flags).fetch = s.fetch := rfl

/-- Every meaning carries Y, SP and FLAGS along unread. -/
theorem exec_withYSpFlags {i : Instr} {s t : State} (y sp flags : Byte) (h : exec i s = .next t) :
    exec i (s.withYSpFlags y sp flags) = .next (t.withYSpFlags y sp flags) := by
  cases i with
  | nop => cases h; rfl
  | ldaImm imm8 => cases h; rfl
  | ldaZp zp8 => cases h; rfl
  | staAbs abs16 => cases h; rfl
  | incZpx base8 => cases h; rfl
  | unknown op => cases h; rfl

/-- Settles O15: the Step reads the same instruction, and its meaning carries the three registers along. -/
theorem ySpAndFlagsAreNeverReadOrWritten : Obligations.YSpAndFlagsAreNeverReadOrWritten := by
  intro s y sp flags
  obtain ⟨t, ht⟩ := step_completes s
  obtain ⟨-, y_kept, sp_kept, flags_kept⟩ := step_keeps_x_y_sp_flags ht
  have same_step : step (s.withYSpFlags y sp flags) = .next (t.withYSpFlags y sp flags) := by
    rw [step, State.fetch_withYSpFlags]
    exact exec_withYSpFlags y sp flags ht
  exact ⟨t, ht, y_kept, sp_kept, flags_kept, same_step⟩

/-! ## The cycles a Step charges (R61, R103) -/

/-- The cycles charged for an opcode: the table entry's base cost, or the fallback's. -/
def opcodeCycles (op : Byte) : Nat :=
  match table op with
  | none => unknownOpcodeCycles
  | some m => (descriptor m).baseCycles

/-- Every opcode is charged at least 2 and at most 6 cycles. -/
theorem opcodeCycles_bounds (op : Byte) : 2 ≤ opcodeCycles op ∧ opcodeCycles op ≤ 6 := by
  unfold opcodeCycles
  cases table op with
  | none => decide
  | some m => cases m <;> decide

/-- A Step charges the cycles of the opcode at PC, modulo 2^64 (D4). -/
theorem step_cycles {s t : State} (h : step s = .next t) :
    t.cpu.cycles = s.cpu.cycles + BitVec.ofNat 64 (opcodeCycles (s.mem.read s.cpu.pc)) := by
  rcases step_next_cases h with ⟨op, rfl⟩ | ⟨op, rfl⟩ | ⟨op, rfl⟩ | ⟨op, rfl⟩ | ⟨op, rfl⟩ | ⟨op, rfl⟩
  case inr.inr.inr.inr.inr => simp [opcodeCycles, table_unknown op, unknownOpcodeCycles]
  all_goals simp [opcodeCycles, op]

/-- Where the count stays below 2^64, a Step adds the opcode's cycles to it as a number. -/
theorem step_cycles_toNat {s t : State} (h : step s = .next t) (room : s.cpu.cycles.toNat + 6 < 2 ^ 64) :
    t.cpu.cycles.toNat = s.cpu.cycles.toNat + opcodeCycles (s.mem.read s.cpu.pc) := by
  have bounds := opcodeCycles_bounds (s.mem.read s.cpu.pc)
  rw [step_cycles h, BitVec.toNat_add, BitVec.toNat_ofNat]
  omega

/-- Settles O23, by induction on the number of Steps: each adds between 2 and 6 cycles without a wrap. -/
theorem cyclesRiseWithinBounds : Obligations.CyclesRiseWithinBounds := by
  intro k
  induction k with
  | zero => exact fun s _ => ⟨s, core_run_zero s, le_rfl, le_rfl⟩
  | succ k ih =>
    intro s room
    obtain ⟨t, ht⟩ := step_completes s
    have added := step_cycles_toNat ht (by omega)
    have bounds := opcodeCycles_bounds (s.mem.read s.cpu.pc)
    obtain ⟨u, hu, lower, upper⟩ := ih t (by omega)
    exact ⟨u, (core_run_succ k ht).trans hu, by omega, by omega⟩

/-! ## The invariant along a session (20_memory.md R37; 70_reset_and_hazards.md R101) -/

/-- A Step makes at most one write to memory (R31, R60). -/
theorem step_mem_eq_or_write {s t : State} (h : step s = .next t) :
    t.mem = s.mem ∨ ∃ a v, t.mem = s.mem.write a v := by
  rcases step_next_cases h with ⟨-, rfl⟩ | ⟨-, rfl⟩ | ⟨-, rfl⟩ | ⟨-, rfl⟩ | ⟨-, rfl⟩ | ⟨-, rfl⟩
  · exact .inl rfl
  · exact .inl rfl
  · exact .inl rfl
  · exact .inr ⟨_, _, rfl⟩
  · exact .inr ⟨_, _, rfl⟩
  · exact .inl rfl

/-- A host write makes at most one write to memory: the byte's. -/
theorem hostWrite_mem_eq_or_write (s : State) (w : HostWrite) :
    (s.hostWrite w).mem = s.mem ∨ ∃ a v, (s.hostWrite w).mem = s.mem.write a v := by
  cases w with
  | byte a v => exact .inr ⟨a, v, rfl⟩
  | _ => exact .inl rfl

/-- Memory that is kept, or changed by one write, stays canonical. -/
theorem State.Inv.of_mem_eq_or_write {s t : State} (inv : s.Inv)
    (change : t.mem = s.mem ∨ ∃ a v, t.mem = s.mem.write a v) : t.Inv := by
  rcases change with kept | ⟨a, v, written⟩
  · exact (congrArg Memory.wf kept).trans inv
  · exact (congrArg Memory.wf written).trans (Memory.wf_write a v inv)

/-- Every Step keeps the invariant. -/
theorem State.Inv.step {s t : State} (inv : s.Inv) (h : step s = .next t) : t.Inv :=
  inv.of_mem_eq_or_write (step_mem_eq_or_write h)

/-- Every host write keeps the invariant. -/
theorem State.Inv.hostWrite {s : State} (inv : s.Inv) (w : HostWrite) : (s.hostWrite w).Inv :=
  inv.of_mem_eq_or_write (hostWrite_mem_eq_or_write s w)

/-- One event of a session completes and keeps the invariant. -/
theorem State.Inv.apply {s : State} (inv : s.Inv) (ev : Event) : ∃ t, s.apply ev = .next t ∧ t.Inv := by
  cases ev with
  | step =>
    obtain ⟨t, ht⟩ := step_completes s
    exact ⟨t, ht, inv.step ht⟩
  | host w => exact ⟨s.hostWrite w, rfl, inv.hostWrite w⟩

/-- A session takes its first event and goes on. -/
theorem session_cons {s t : State} {ev : Event} (rest : List Event) (h : s.apply ev = .next t) :
    s.session (ev :: rest) = t.session rest := by
  simp only [State.session, h]

/-- Settles O32, by induction on the events: each completes and keeps the invariant. -/
theorem sessionsCompleteAndKeepInvariant : Obligations.SessionsCompleteAndKeepInvariant := by
  intro events
  induction events with
  | nil => exact fun s inv => ⟨s, rfl, inv⟩
  | cons ev rest ih =>
    intro s inv
    obtain ⟨t, applied, inv_t⟩ := inv.apply ev
    obtain ⟨u, ran, inv_u⟩ := ih t inv_t
    exact ⟨u, (session_cons rest applied).trans ran, inv_u⟩

/-! ## Construction and host writes (R21, R22) -/

/-- Settles O28: reset is construction, and construction on any contents sets the registers to `Cpu.zero`. -/
theorem registersAreZeroAtConstruction : Obligations.RegistersAreZeroAtConstruction := by
  intro s constructed
  have registers : s.cpu = Cpu.zero := by
    rcases constructed with rfl | ⟨mem0, rfl⟩
    · exact State.construct_cpu []
    · exact State.construct_cpu mem0
  simp [registers, Cpu.zero]

/-- Settles O41: the register writes by their equations, the byte by the read-after-write rules of memory. -/
theorem hostWritesSetOneRegister : Obligations.HostWritesSetOneRegister := by
  intro s v p c
  refine ⟨s.hostWrite_a v, s.hostWrite_x v, s.hostWrite_y v, s.hostWrite_sp v, s.hostWrite_flags v,
    s.hostWrite_pc p, s.hostWrite_cycles c, ?_⟩
  rw [State.hostWrite_byte]
  exact ⟨s.writeByte_cpu p v, s.writeByte_diag p v, s.mem.read_write_self p v,
    fun adr ne => s.mem.read_write_ne p adr v ne⟩

end Sys2Proof.Machine

/-! # The memory family (20_memory.md)

First the contents of memory and their canonical form; then the Step on any bus as the sequence of its accesses, from
which the statements about faulting and recording buses follow. -/

namespace Sys2Proof.Machine

/-! ## The invariant and the port of RAM64K (R41) -/

/-- Settles O31: a Step keeps memory or changes it by one write, and either keeps the canonical form. -/
theorem stepKeepsInvariant : Obligations.StepKeepsInvariant := fun _ _ inv stepped => inv.step stepped

/-- Settles O30: the memory at reset lists nothing. -/
theorem resetMeetsInvariant : Obligations.ResetMeetsInvariant := Memory.wf_nil

/-- Settles O24: the equations of the port, and the read-after-write rules of memory. -/
theorem ramPortReadsLastWrite : Obligations.RamPortReadsLastWrite := fun m a v =>
  ⟨ram64k_read m a, m.write a v, ram64k_write m a v, m.read_write_self a v,
    fun b ne => m.read_write_ne a b v ne⟩

/-! ## Bytes placed in memory, and every contents (R29, R41) -/

/-- A distance other than zero and below 2^16 leads to another address. -/
theorem add_ofNat_ne_self (a : Addr) {k : Nat} (pos : 0 < k) (small : k < 65536) : a + BitVec.ofNat 16 k ≠ a := by
  bv_omega

/-- Settles O27, by induction on the bytes: the bytes after the first do not come round to it. -/
theorem placedBytesAreReadBack : Obligations.PlacedBytesAreReadBack := by
  intro m a bytes
  induction bytes generalizing m a with
  | nil => exact fun _ k h => absurd h (Nat.not_lt_zero k)
  | cons first rest ih =>
    intro fits k h
    rw [List.length_cons] at fits h
    have shift (j : Nat) : a + 1#16 + BitVec.ofNat 16 j = a + BitVec.ofNat 16 (j + 1) := by
      rw [BitVec.add_assoc, Nat.add_comm j 1, BitVec.ofNat_add]
    cases k with
    | zero =>
      have apart : ∀ j < rest.length, a ≠ a + 1#16 + BitVec.ofNat 16 j := fun j hj => by
        rw [shift]
        exact (add_ofNat_ne_self a j.succ_pos (by omega)).symm
      simpa [Memory.place] using Memory.read_place_outside (m.write a first) (a + 1#16) a rest apart
    | succ j =>
      rw [← shift]
      exact ih (m.write a first) (a + 1#16) (by omega) j (by omega)

/-- The 65536 bytes of a contents, by rising address. -/
def contentsBytes (f : Addr → Byte) : List Byte := List.ofFn fun i : Fin 65536 => f (BitVec.ofNat 16 i)

theorem length_contentsBytes (f : Addr → Byte) : (contentsBytes f).length = 65536 := List.length_ofFn

theorem getElem_contentsBytes (f : Addr → Byte) (k : Nat) (h : k < (contentsBytes f).length) :
    (contentsBytes f)[k] = f (BitVec.ofNat 16 k) := List.getElem_ofFn h

/-- Settles O25: the memory with the contents' bytes placed from address 0 on. -/
theorem everyMem0IsRepresentable : Obligations.EveryMem0IsRepresentable := by
  intro f
  refine ⟨Memory.place [] 0#16 (contentsBytes f), Memory.wf_place _ _ Memory.wf_nil, fun a => ?_⟩
  have inside : a.toNat < (contentsBytes f).length := (length_contentsBytes f).symm ▸ a.isLt
  have placed := placedBytesAreReadBack [] 0#16 (contentsBytes f) (length_contentsBytes f).le a.toNat inside
  rw [getElem_contentsBytes] at placed
  simpa using placed

/-! ## The canonical form is one (log entry 1) -/

theorem Memory.wfFrom_cons {lo k : Nat} {v : Byte} {rest : List Host.Cell} :
    Memory.wfFrom lo ((k, v) :: rest) = true ↔
      lo ≤ k ∧ k < Config.addressSpace ∧ v ≠ Config.unlistedByte ∧ Memory.wfFrom (k + 1) rest = true := by
  simp [Memory.wfFrom, and_assoc]

/-- A canonical list holds nothing below the address it starts from. -/
theorem Memory.lookup_below {lo key : Nat} {m : List Host.Cell} (canonical : Memory.wfFrom lo m = true)
    (below : key < lo) : Memory.lookup key m = Config.unlistedByte := by
  induction m generalizing lo with
  | nil => rfl
  | cons c rest ih =>
    obtain ⟨k, v⟩ := c
    obtain ⟨le, -, -, rest_canonical⟩ := Memory.wfFrom_cons.mp canonical
    have ne : k ≠ key := by omega
    simp [Memory.lookup, ne, ih rest_canonical (by omega)]

/-- A canonical list that reads as one whose first cell is at `k` has a cell at or below `k`. -/
theorem Memory.not_wfFrom_succ_of_reads_as_cons {lo k : Nat} {v : Byte} {rest m : List Host.Cell}
    (canonical : Memory.wfFrom lo ((k, v) :: rest) = true)
    (alike : Memory.lookup k m = Memory.lookup k ((k, v) :: rest)) : ¬ Memory.wfFrom (k + 1) m = true := by
  obtain ⟨-, -, listed, -⟩ := Memory.wfFrom_cons.mp canonical
  intro above
  have : Config.unlistedByte = v := by simpa [Memory.lookup, Memory.lookup_below above k.lt_succ_self] using alike
  exact listed this.symm

/-- Canonical lists that read alike at every address are equal. -/
theorem Memory.eq_of_lookup_eq {lo lo' : Nat} {m m' : List Host.Cell} (canonical : Memory.wfFrom lo m = true)
    (canonical' : Memory.wfFrom lo' m' = true)
    (alike : ∀ key < Config.addressSpace, Memory.lookup key m = Memory.lookup key m') : m = m' := by
  induction m generalizing lo lo' m' with
  | nil =>
    cases m' with
    | nil => rfl
    | cons c' rest' =>
      obtain ⟨k', v'⟩ := c'
      obtain ⟨-, inside', -, -⟩ := Memory.wfFrom_cons.mp canonical'
      exact absurd rfl (Memory.not_wfFrom_succ_of_reads_as_cons canonical' (alike k' inside'))
  | cons c rest ih =>
    obtain ⟨k, v⟩ := c
    obtain ⟨le, inside, listed, rest_canonical⟩ := Memory.wfFrom_cons.mp canonical
    cases m' with
    | nil => exact absurd rfl (Memory.not_wfFrom_succ_of_reads_as_cons canonical (alike k inside).symm)
    | cons c' rest' =>
      obtain ⟨k', v'⟩ := c'
      obtain ⟨le', inside', listed', rest_canonical'⟩ := Memory.wfFrom_cons.mp canonical'
      have not_before : ¬ k < k' := fun lt =>
        Memory.not_wfFrom_succ_of_reads_as_cons canonical (alike k inside).symm
          (Memory.wfFrom_cons.mpr ⟨lt, inside', listed', rest_canonical'⟩)
      have not_after : ¬ k' < k := fun lt =>
        Memory.not_wfFrom_succ_of_reads_as_cons canonical' (alike k' inside')
          (Memory.wfFrom_cons.mpr ⟨lt, inside, listed, rest_canonical⟩)
      obtain rfl : k = k' := by omega
      obtain rfl : v = v' := by simpa [Memory.lookup] using alike k inside
      have rest_alike : ∀ key < Config.addressSpace, Memory.lookup key rest = Memory.lookup key rest' := by
        intro key key_inside
        by_cases at_head : k = key
        · have below : key < k + 1 := by omega
          rw [Memory.lookup_below rest_canonical below, Memory.lookup_below rest_canonical' below]
        · simpa [Memory.lookup, at_head] using alike key key_inside
      rw [ih rest_canonical rest_canonical' rest_alike]

/-- Settles O26: reading at every address is looking up every key below 2^16. -/
theorem sameContentsSameMemory : Obligations.SameContentsSameMemory := by
  intro m m' canonical canonical' alike
  refine Memory.eq_of_lookup_eq canonical canonical' fun key inside => ?_
  have to_key : (BitVec.ofNat 16 key).toNat = key := Nat.mod_eq_of_lt inside
  simpa only [Memory.read, to_key] using alike (BitVec.ofNat 16 key)

/-! ## What a Step leaves unchanged in memory (R24, R60) -/

/-- A zero-page address is below 0x0100 (R24). -/
theorem eaZeroPageX_lt (base8 x : Byte) : (eaZeroPageX base8 x).toNat < 256 := by
  rw [toNat_eaZeroPageX]
  exact Nat.mod_lt _ (by decide)

/-- A Step that is not STA_ABS's writes nothing, or is INC_ZPX's and writes one byte of the zero page. -/
theorem step_mem_eq_or_zero_page_write {s t : State} (h : step s = .next t)
    (not_staAbs : s.mem.read s.cpu.pc ≠ 0x03#8) :
    t.mem = s.mem ∨ s.mem.read s.cpu.pc = 0x04#8 ∧ ∃ a v, a.toNat < 256 ∧ t.mem = s.mem.write a v := by
  rcases step_next_cases h with ⟨-, rfl⟩ | ⟨-, rfl⟩ | ⟨-, rfl⟩ | ⟨op, -⟩ | ⟨op, rfl⟩ | ⟨-, rfl⟩
  · exact .inl rfl
  · exact .inl rfl
  · exact .inl rfl
  · exact absurd op not_staAbs
  · exact .inr ⟨op, _, _, eaZeroPageX_lt _ _, rfl⟩
  · exact .inl rfl

/-- Settles O20: the one write a Step other than STA_ABS's can make is INC_ZPX's, in the zero page. -/
theorem onlyStaAbsWritesOutsideZeroPage : Obligations.OnlyStaAbsWritesOutsideZeroPage := by
  intro s not_staAbs
  obtain ⟨t, ht⟩ := step_completes s
  refine ⟨t, ht, ?_⟩
  rcases step_mem_eq_or_zero_page_write ht not_staAbs with kept | ⟨op, a, v, zero_page, written⟩
  · exact ⟨fun adr _ => by rw [kept], fun _ => kept⟩
  · refine ⟨fun adr outside => ?_, fun not_incZpx => absurd op not_incZpx⟩
    rw [written, Memory.read_write_ne]
    rintro rfl
    omega

/-! ## Sequencing what can fault -/

section
variable {ε α γ : Type} {x : Except ε α} {g : α → Except ε γ}

@[simp] theorem except_ok_bind (a : α) (g : α → Except ε γ) : (.ok a >>= g) = g a := rfl

@[simp] theorem except_pure (a : α) : (pure a : Except ε α) = .ok a := rfl

@[simp] theorem except_error_bind (f : ε) (g : α → Except ε γ) : (.error f >>= g) = .error f := rfl

@[simp] theorem except_bind_eq_ok {r : γ} : (x >>= g) = .ok r ↔ ∃ a, x = .ok a ∧ g a = .ok r := by
  cases x <;> simp

@[simp] theorem except_bind_eq_error {f : ε} :
    (x >>= g) = .error f ↔ x = .error f ∨ ∃ a, x = .ok a ∧ g a = .error f := by
  cases x <;> simp

end

/-! ## One access on any bus, with the fault that stands for no answer (R25, R42) -/

section
variable {β : Type} {B : Bus β}

/-- A read of the bus, or the BusFault that names it. -/
def Bus.readOrFault (B : Bus β) (b : β) (a : Addr) : Except Fault (Byte × β) :=
  match B.read b a with
  | some r => .ok r
  | none => .error (.busFault a .read)

/-- A write to the bus, or the BusFault that names it. -/
def Bus.writeOrFault (B : Bus β) (b : β) (a : Addr) (v : Byte) : Except Fault β :=
  match B.write b a v with
  | some b' => .ok b'
  | none => .error (.busFault a .write)

theorem Engine.memRead_eq_bind (B : Bus β) (e : Engine β) (a : Addr) :
    e.memRead B a = do
      let (v, b) ← B.readOrFault e.bus a
      return (v, { e with bus := b }) := by
  unfold Engine.memRead Bus.readOrFault
  cases B.read e.bus a <;> rfl

theorem Engine.memWrite_eq_bind (B : Bus β) (e : Engine β) (a : Addr) (v : Byte) :
    e.memWrite B a v = do
      let b ← B.writeOrFault e.bus a v
      return { e with bus := b } := by
  unfold Engine.memWrite Bus.writeOrFault
  cases B.write e.bus a v <;> rfl

@[simp] theorem Bus.readOrFault_eq_ok {b : β} {a : Addr} {r : Byte × β} :
    B.readOrFault b a = .ok r ↔ B.read b a = some r := by
  unfold Bus.readOrFault
  cases B.read b a <;> simp

@[simp] theorem Bus.readOrFault_eq_error {b : β} {a : Addr} {f : Fault} :
    B.readOrFault b a = .error f ↔ B.read b a = none ∧ f = .busFault a .read := by
  unfold Bus.readOrFault
  cases B.read b a <;> simp [eq_comm]

@[simp] theorem Bus.writeOrFault_eq_ok {b b' : β} {a : Addr} {v : Byte} :
    B.writeOrFault b a v = .ok b' ↔ B.write b a v = some b' := by
  unfold Bus.writeOrFault
  cases B.write b a v <;> simp

@[simp] theorem Bus.writeOrFault_eq_error {b : β} {a : Addr} {v : Byte} {f : Fault} :
    B.writeOrFault b a v = .error f ↔ B.write b a v = none ∧ f = .busFault a .write := by
  unfold Bus.writeOrFault
  cases B.write b a v <;> simp [eq_comm]

end

/-! ## The phases of a Step on any bus, in sequence (R54, R66 to R71, R74 to R78) -/

section
variable {β : Type} (B : Bus β) (e : Engine β) (ea : Addr)

theorem Engine.operandByte_eq_bind :
    e.operandByte B = do
      let (v, e1) ← e.memRead B e.cpu.pc
      return (v, e1.advance 1) := by
  unfold Engine.operandByte
  cases e.memRead B e.cpu.pc <;> rfl

theorem Engine.operandPair_eq_bind :
    e.operandPair B = do
      let (lo, e1) ← e.memRead B e.cpu.pc
      let (hi, e2) ← e1.memRead B (e.cpu.pc + 1#16)
      return (lo, hi, e2.advance 2) := by
  unfold Engine.operandPair
  cases e.memRead B e.cpu.pc with
  | error f => rfl
  | ok r =>
    simp only [except_ok_bind]
    cases r.2.memRead B (e.cpu.pc + 1#16) <;> rfl

theorem resolve_zeroPage_eq_bind :
    resolve B .zeroPage e = do
      let (z, e1) ← e.operandByte B
      return (eaZeroPage z, e1) := by
  unfold resolve
  cases e.operandByte B <;> rfl

theorem resolve_absolute_eq_bind :
    resolve B .absolute e = do
      let (lo, hi, e1) ← e.operandPair B
      return (eaAbsolute lo hi, e1) := by
  unfold resolve
  cases e.operandPair B <;> rfl

theorem resolve_zeroPageX_eq_bind :
    resolve B .zeroPageX e = do
      let (base8, e1) ← e.operandByte B
      return (eaZeroPageX base8 e.cpu.x, e1) := by
  unfold resolve
  cases e.operandByte B <;> rfl

theorem execute_loadA_eq_bind :
    execute B .loadA ea e = do
      let (v, e1) ← e.memRead B ea
      return { e1 with cpu := { e1.cpu with a := v } } := by
  unfold execute
  cases e.memRead B ea <;> rfl

theorem execute_increment_eq_bind :
    execute B .increment ea e = e.memRead B ea >>= fun (v, e1) => e1.memWrite B ea (v + 1#8) := by
  unfold execute
  cases e.memRead B ea <;> rfl

theorem runEntry_eq_bind (d : Descriptor) :
    runEntry B d e = do
      let (ea, e1) ← resolve B d.mode e
      let e2 ← execute B d.action ea e1
      return (e2.account d.baseCycles) := by
  unfold runEntry
  cases resolve B d.mode e with
  | error f => rfl
  | ok r =>
    simp only [except_ok_bind]
    cases execute B d.action r.1 r.2 <;> rfl

end

/-! ## The Step of each table entry on any bus, as its accesses (R31, R54) -/

/-- The registers after an instruction of the table: PC past it, its base cost charged (R59, R61, R62). -/
def Cpu.complete (c : Cpu) (m : Mnemonic) : Cpu := (c.advancePc m.length).charge (descriptor m).baseCycles

@[simp] theorem Cpu.complete_a (c : Cpu) (m : Mnemonic) : (c.complete m).a = c.a := rfl

section
variable {β : Type} {B : Bus β} {e : Engine β} {b : β}

theorem stepOn_nop (fetched : B.read e.bus e.cpu.pc = some (0x00#8, b)) :
    stepOn B e = .ok { e with cpu := e.cpu.complete .nop, bus := b } := by
  rw [stepOn_entry fetched table_nop]
  rfl

theorem stepOn_ldaImm (fetched : B.read e.bus e.cpu.pc = some (0x01#8, b)) :
    stepOn B e = do
      let (v, b1) ← B.readOrFault b (e.cpu.pc + 1#16)
      return { e with cpu := Cpu.complete { e.cpu with a := v } .ldaImm, bus := b1 } := by
  rw [stepOn_entry fetched table_ldaImm, runEntry_eq_bind]
  simp [descriptor, resolve, execute_loadA_eq_bind, Engine.memRead_eq_bind, eaImmediate, Engine.advance,
    Engine.account, Cpu.complete, Cpu.advancePc, BitVec.add_assoc]

theorem stepOn_ldaZp (fetched : B.read e.bus e.cpu.pc = some (0x02#8, b)) :
    stepOn B e = do
      let (z, b1) ← B.readOrFault b (e.cpu.pc + 1#16)
      let (v, b2) ← B.readOrFault b1 (eaZeroPage z)
      return { e with cpu := Cpu.complete { e.cpu with a := v } .ldaZp, bus := b2 } := by
  rw [stepOn_entry fetched table_ldaZp, runEntry_eq_bind]
  simp [descriptor, resolve_zeroPage_eq_bind, Engine.operandByte_eq_bind, execute_loadA_eq_bind,
    Engine.memRead_eq_bind, Engine.advance, Engine.account, Cpu.complete, Cpu.advancePc, BitVec.add_assoc]

theorem stepOn_staAbs (fetched : B.read e.bus e.cpu.pc = some (0x03#8, b)) :
    stepOn B e = do
      let (lo, b1) ← B.readOrFault b (e.cpu.pc + 1#16)
      let (hi, b2) ← B.readOrFault b1 (e.cpu.pc + 2#16)
      let b3 ← B.writeOrFault b2 (eaAbsolute lo hi) e.cpu.a
      return { e with cpu := e.cpu.complete .staAbs, bus := b3 } := by
  rw [stepOn_entry fetched table_staAbs, runEntry_eq_bind]
  simp [descriptor, resolve_absolute_eq_bind, Engine.operandPair_eq_bind, execute, Engine.memRead_eq_bind,
    Engine.memWrite_eq_bind, Engine.advance, Engine.account, Cpu.complete, Cpu.advancePc, BitVec.add_assoc]

theorem stepOn_incZpx (fetched : B.read e.bus e.cpu.pc = some (0x04#8, b)) :
    stepOn B e = do
      let (base8, b1) ← B.readOrFault b (e.cpu.pc + 1#16)
      let (v, b2) ← B.readOrFault b1 (eaZeroPageX base8 e.cpu.x)
      let b3 ← B.writeOrFault b2 (eaZeroPageX base8 e.cpu.x) (v + 1#8)
      return { e with cpu := e.cpu.complete .incZpx, bus := b3 } := by
  rw [stepOn_entry fetched table_incZpx, runEntry_eq_bind]
  simp [descriptor, resolve_zeroPageX_eq_bind, Engine.operandByte_eq_bind, execute_increment_eq_bind,
    Engine.memRead_eq_bind, Engine.memWrite_eq_bind, Engine.advance, Engine.account, Cpu.complete, Cpu.advancePc,
    BitVec.add_assoc]

theorem stepOn_unknown {op : Byte} (unknown : 5 ≤ op.toNat) (fetched : B.read e.bus e.cpu.pc = some (op, b)) :
    stepOn B e = .ok
      { cpu := (e.cpu.advancePc 1).charge unknownOpcodeCycles, bus := b,
        diag := e.diag ++ [.unknownOpcode op e.cpu.pc] } :=
  stepOn_fallback fetched (table_unknown unknown)

end

/-! ## The faults of a Step on any bus (R42, R84) -/

/-- An opcode the table does not hold is none of the five it holds. -/
theorem ne_of_unknown {op : Byte} (unknown : 5 ≤ op.toNat) :
    op ≠ 0x00#8 ∧ op ≠ 0x01#8 ∧ op ≠ 0x02#8 ∧ op ≠ 0x03#8 ∧ op ≠ 0x04#8 := by
  refine ⟨?_, ?_, ?_, ?_, ?_⟩ <;> bv_omega

/-- Settles O36: the Step is the sequence of its accesses, so it faults where one of them is not served and the
ones before it are. -/
theorem onlyTheBusFaults : Obligations.OnlyTheBusFaults := by
  intro β B e f
  cases fetched : B.read e.bus e.cpu.pc with
  | none => simp [stepOn_fetch_fault fetched, eq_comm]
  | some answer =>
    obtain ⟨op, b⟩ := answer
    rcases opcode_cases op with rfl | rfl | rfl | rfl | rfl | unknown
    · simp [stepOn_nop fetched]
    · simp [stepOn_ldaImm fetched]
    · simp [stepOn_ldaZp fetched]
    · simp [stepOn_staAbs fetched]
    · simp [stepOn_incZpx fetched]
    · simp [stepOn_unknown unknown fetched, ne_of_unknown unknown]

/-! ## The Step on RAM64K behind the two buses of Machine/Engine.lean -/

@[simp] theorem State.toEngine_cpu (s : State) : s.toEngine.cpu = s.cpu := rfl

@[simp] theorem State.toEngine_bus (s : State) : s.toEngine.bus = s.mem := rfl

@[simp] theorem State.toEngine_diag (s : State) : s.toEngine.diag = s.diag := rfl

@[simp] theorem ram64k_readOrFault (m : Memory) (a : Addr) : ram64k.readOrFault m a = .ok (m.read a, m) := rfl

@[simp] theorem ram64k_writeOrFault (m : Memory) (a : Addr) (v : Byte) :
    ram64k.writeOrFault m a v = .ok (m.write a v) := rfl

theorem ram64k_fetch {s : State} {op : Byte} (h : s.mem.read s.cpu.pc = op) :
    ram64k.read s.toEngine.bus s.toEngine.cpu.pc = some (op, s.mem) := by
  simp [h]

/-- Every row of R31's table begins with the fetch. -/
theorem busAccesses_eq_fetch_cons (s : State) : ∃ rest, s.busAccesses = .read s.cpu.pc :: rest := by
  unfold State.busAccesses
  cases s.fetch <;> exact ⟨_, rfl⟩

/-! ## The faulting bus (R26, R42) -/

/-- The outcome of these accesses where those of `bad` fault: BusFault at the first of them that does, or what follows
them. -/
def firstFaultOr {α : Type} (bad : Access → Bool) (accesses : List Access) (r : Except Fault α) : Except Fault α :=
  match accesses.find? bad with
  | some x => .error (.busFault x.addr x.kind)
  | none => r

section
variable {α β : Type} {bad : Access → Bool}

theorem firstFaultOr_of_bad {x : Access} (h : bad x = true) (rest : List Access) (r : Except Fault α) :
    firstFaultOr bad (x :: rest) r = .error (.busFault x.addr x.kind) := by
  simp [firstFaultOr, h]

theorem firstFaultOr_of_not_bad {x : Access} (h : bad x = false) (rest : List Access) (r : Except Fault α) :
    firstFaultOr bad (x :: rest) r = firstFaultOr bad rest r := by
  simp [firstFaultOr, h]

@[simp] theorem firstFaultOr_nil (r : Except Fault α) : firstFaultOr bad [] r = r := rfl

@[simp] theorem firstFaultOr_firstFaultOr (xs ys : List Access) (r : Except Fault α) :
    firstFaultOr bad xs (firstFaultOr bad ys r) = firstFaultOr bad (xs ++ ys) r := by
  unfold firstFaultOr
  rw [List.find?_append]
  cases xs.find? bad <;> rfl

@[simp] theorem firstFaultOr_bind {γ : Type} (xs : List Access) (r : Except Fault α) (g : α → Except Fault γ) :
    (firstFaultOr bad xs r >>= g) = firstFaultOr bad xs (r >>= g) := by
  unfold firstFaultOr
  cases xs.find? bad <;> rfl

variable {B : Bus β} {e : Engine β}

@[simp] theorem faultingBus_readOrFault (b : β) (a : Addr) :
    (faultingBus bad B).readOrFault b a = firstFaultOr bad [.read a] (B.readOrFault b a) := by
  cases h : bad (.read a) <;>
    simp [Bus.readOrFault, faultingBus, h, firstFaultOr, Access.addr, Access.kind]

@[simp] theorem faultingBus_writeOrFault (b : β) (a : Addr) (v : Byte) :
    (faultingBus bad B).writeOrFault b a v = firstFaultOr bad [.write a v] (B.writeOrFault b a v) := by
  cases h : bad (.write a v) <;>
    simp [Bus.writeOrFault, faultingBus, h, firstFaultOr, Access.addr, Access.kind]

theorem stepOn_faultingBus_of_bad_fetch (h : bad (.read e.cpu.pc) = true) :
    stepOn (faultingBus bad B) e = .error (.busFault e.cpu.pc .read) :=
  stepOn_fetch_fault (by simp [faultingBus, h])

theorem faultingBus_fetch {op : Byte} {b : β} (h : bad (.read e.cpu.pc) = false)
    (fetched : B.read e.bus e.cpu.pc = some (op, b)) :
    (faultingBus bad B).read e.bus e.cpu.pc = some (op, b) := by
  simp [faultingBus, h, fetched]

end

/-- Settles O35: where the fetch is served, the Step on the faulting bus is the Step on RAM64K behind each of its
further accesses, and these gather into the row of R31's table. -/
theorem faultingBusEndsStepAtFirstFault : Obligations.FaultingBusEndsStepAtFirstFault := by
  intro s bad
  change stepOn (faultingBus bad ram64k) s.toEngine = firstFaultOr bad s.busAccesses (stepOn ram64k s.toEngine)
  cases fetch : bad (.read s.cpu.pc) with
  | true =>
    obtain ⟨rest, accesses⟩ := busAccesses_eq_fetch_cons s
    rw [accesses, firstFaultOr_of_bad fetch]
    exact stepOn_faultingBus_of_bad_fetch fetch
  | false =>
    have unfaulted {op : Byte} (h : s.mem.read s.cpu.pc = op) := faultingBus_fetch fetch (ram64k_fetch h)
    rcases step_cases s with ⟨op, fetched, -⟩ | ⟨op, fetched, -⟩ | ⟨op, fetched, -⟩ | ⟨op, fetched, -⟩ |
      ⟨op, fetched, -⟩ | ⟨unknown, fetched, -⟩
    all_goals simp only [State.busAccesses, fetched, firstFaultOr_of_not_bad fetch]
    · simp [stepOn_nop (ram64k_fetch op), stepOn_nop (unfaulted op)]
    · simp [stepOn_ldaImm (ram64k_fetch op), stepOn_ldaImm (unfaulted op)]
    · simp [stepOn_ldaZp (ram64k_fetch op), stepOn_ldaZp (unfaulted op)]
    · simp [stepOn_staAbs (ram64k_fetch op), stepOn_staAbs (unfaulted op), eaAbsolute]
    · simp [stepOn_incZpx (ram64k_fetch op), stepOn_incZpx (unfaulted op)]
    · simp [stepOn_unknown unknown (ram64k_fetch rfl), stepOn_unknown unknown (unfaulted rfl)]

/-! ## The recording bus (R31 to R33) -/

section
variable {β : Type} {B : Bus β} {e : Engine β}

@[simp] theorem recordingBus_readOrFault (p : β × List Access) (a : Addr) :
    (recordingBus B).readOrFault p a = do
      let (v, b) ← B.readOrFault p.1 a
      return (v, (b, p.2 ++ [.read a])) := by
  cases h : B.read p.1 a <;> simp [Bus.readOrFault, recordingBus, h]

@[simp] theorem recordingBus_writeOrFault (p : β × List Access) (a : Addr) (v : Byte) :
    (recordingBus B).writeOrFault p a v = do
      let b ← B.writeOrFault p.1 a v
      return (b, p.2 ++ [.write a v]) := by
  cases h : B.write p.1 a v <;> simp [Bus.writeOrFault, recordingBus, h]

/-- The engine with a list of accesses beside its bus, to which the recording bus adds. -/
def Engine.noting (e : Engine β) (log : List Access) : Engine (β × List Access) :=
  { cpu := e.cpu, bus := (e.bus, log), diag := e.diag }

@[simp] theorem Engine.noting_cpu (e : Engine β) (log : List Access) : (e.noting log).cpu = e.cpu := rfl

@[simp] theorem Engine.noting_bus (e : Engine β) (log : List Access) : (e.noting log).bus = (e.bus, log) := rfl

@[simp] theorem Engine.noting_diag (e : Engine β) (log : List Access) : (e.noting log).diag = e.diag := rfl

theorem recordingBus_fetch {op : Byte} {b : β} (log : List Access)
    (fetched : B.read e.bus e.cpu.pc = some (op, b)) :
    (recordingBus B).read (e.noting log).bus (e.noting log).cpu.pc = some (op, (b, log ++ [.read e.cpu.pc])) := by
  simp [recordingBus, fetched]

end

/-! ## The Step on the recording bus: the Step on the bus, with R31's row noted -/

section
variable {β : Type} {B : Bus β} {e : Engine β} {b : β} (log : List Access)

theorem stepOn_recordingBus_nop (fetched : B.read e.bus e.cpu.pc = some (0x00#8, b)) :
    stepOn (recordingBus B) (e.noting log) =
      .ok (Engine.noting { e with cpu := e.cpu.complete .nop, bus := b } (log ++ [.read e.cpu.pc])) :=
  stepOn_nop (recordingBus_fetch log fetched)

theorem stepOn_recordingBus_ldaImm (fetched : B.read e.bus e.cpu.pc = some (0x01#8, b)) :
    stepOn (recordingBus B) (e.noting log) = do
      let (v, b1) ← B.readOrFault b (e.cpu.pc + 1#16)
      return Engine.noting { e with cpu := Cpu.complete { e.cpu with a := v } .ldaImm, bus := b1 }
        (log ++ [.read e.cpu.pc, .read (e.cpu.pc + 1#16)]) := by
  rw [stepOn_ldaImm (recordingBus_fetch log fetched)]
  simp [Engine.noting]

theorem stepOn_recordingBus_ldaZp (fetched : B.read e.bus e.cpu.pc = some (0x02#8, b)) :
    stepOn (recordingBus B) (e.noting log) = do
      let (z, b1) ← B.readOrFault b (e.cpu.pc + 1#16)
      let (v, b2) ← B.readOrFault b1 (eaZeroPage z)
      return Engine.noting { e with cpu := Cpu.complete { e.cpu with a := v } .ldaZp, bus := b2 }
        (log ++ [.read e.cpu.pc, .read (e.cpu.pc + 1#16), .read (eaZeroPage z)]) := by
  rw [stepOn_ldaZp (recordingBus_fetch log fetched)]
  simp [Engine.noting]

theorem stepOn_recordingBus_staAbs (fetched : B.read e.bus e.cpu.pc = some (0x03#8, b)) :
    stepOn (recordingBus B) (e.noting log) = do
      let (lo, b1) ← B.readOrFault b (e.cpu.pc + 1#16)
      let (hi, b2) ← B.readOrFault b1 (e.cpu.pc + 2#16)
      let b3 ← B.writeOrFault b2 (eaAbsolute lo hi) e.cpu.a
      return Engine.noting { e with cpu := e.cpu.complete .staAbs, bus := b3 }
        (log ++ [.read e.cpu.pc, .read (e.cpu.pc + 1#16), .read (e.cpu.pc + 2#16),
          .write (eaAbsolute lo hi) e.cpu.a]) := by
  rw [stepOn_staAbs (recordingBus_fetch log fetched)]
  simp [Engine.noting]

theorem stepOn_recordingBus_incZpx (fetched : B.read e.bus e.cpu.pc = some (0x04#8, b)) :
    stepOn (recordingBus B) (e.noting log) = do
      let (base8, b1) ← B.readOrFault b (e.cpu.pc + 1#16)
      let (v, b2) ← B.readOrFault b1 (eaZeroPageX base8 e.cpu.x)
      let b3 ← B.writeOrFault b2 (eaZeroPageX base8 e.cpu.x) (v + 1#8)
      return Engine.noting { e with cpu := e.cpu.complete .incZpx, bus := b3 }
        (log ++ [.read e.cpu.pc, .read (e.cpu.pc + 1#16), .read (eaZeroPageX base8 e.cpu.x),
          .write (eaZeroPageX base8 e.cpu.x) (v + 1#8)]) := by
  rw [stepOn_incZpx (recordingBus_fetch log fetched)]
  simp [Engine.noting]

theorem stepOn_recordingBus_unknown {op : Byte} (unknown : 5 ≤ op.toNat)
    (fetched : B.read e.bus e.cpu.pc = some (op, b)) :
    stepOn (recordingBus B) (e.noting log) = .ok (Engine.noting
      { cpu := (e.cpu.advancePc 1).charge unknownOpcodeCycles, bus := b,
        diag := e.diag ++ [.unknownOpcode op e.cpu.pc] } (log ++ [.read e.cpu.pc])) :=
  stepOn_unknown unknown (recordingBus_fetch log fetched)

end

/-- Settles O34: RAM64K serves every access, so over the recording bus the Step ends as the machine's and notes the
row of R31's table. -/
theorem stepMakesTheListedAccesses : Obligations.StepMakesTheListedAccesses := by
  intro s log
  obtain ⟨t, stepped⟩ := step_completes s
  refine ⟨t, stepped, ?_⟩
  change stepOn (recordingBus ram64k) (s.toEngine.noting log) =
    .ok (Engine.noting t.toEngine (log ++ s.busAccesses))
  rcases step_cases s with ⟨op, fetched, next⟩ | ⟨op, fetched, next⟩ | ⟨op, fetched, next⟩ |
    ⟨op, fetched, next⟩ | ⟨op, fetched, next⟩ | ⟨unknown, fetched, next⟩
  all_goals
    obtain rfl := Host.Outcome.next.inj (stepped.symm.trans next)
    simp only [State.busAccesses, fetched]
  · rw [stepOn_recordingBus_nop log (ram64k_fetch op)]
    rfl
  · rw [stepOn_recordingBus_ldaImm log (ram64k_fetch op)]
    rfl
  · rw [stepOn_recordingBus_ldaZp log (ram64k_fetch op)]
    rfl
  · rw [stepOn_recordingBus_staAbs log (ram64k_fetch op)]
    rfl
  · rw [stepOn_recordingBus_incZpx log (ram64k_fetch op)]
    rfl
  · rw [stepOn_recordingBus_unknown log unknown (ram64k_fetch rfl)]
    rfl

/-- Settles O37: a completed Step over the recording bus says what the bus itself answered to each access, and with
these answers the Step over the bus completes alike. -/
theorem accessKindsOnAnyBus : Obligations.AccessKindsOnAnyBus := by
  intro β B e log op b e' fetched completed
  change stepOn (recordingBus B) (e.noting log) = _ at completed
  rcases opcode_cases op with rfl | rfl | rfl | rfl | rfl | unknown
  · rw [stepOn_recordingBus_nop log fetched] at completed
    cases completed
    exact ⟨stepOn_nop fetched, [.read e.cpu.pc], by simp [Access.kind]⟩
  · simp only [stepOn_recordingBus_ldaImm log fetched, except_bind_eq_ok, Bus.readOrFault_eq_ok,
      Prod.exists] at completed
    obtain ⟨v, b1, operand, ⟨⟩⟩ := completed
    refine ⟨by simp [stepOn_ldaImm fetched, operand], [.read e.cpu.pc, .read (e.cpu.pc + 1#16)], ?_⟩
    simp [Access.kind, operand]
  · simp only [stepOn_recordingBus_ldaZp log fetched, except_bind_eq_ok, Bus.readOrFault_eq_ok,
      Prod.exists] at completed
    obtain ⟨z, b1, operand, v, b2, loaded, ⟨⟩⟩ := completed
    refine ⟨by simp [stepOn_ldaZp fetched, operand, loaded],
      [.read e.cpu.pc, .read (e.cpu.pc + 1#16), .read (eaZeroPage z)], ?_⟩
    simp [Access.kind, operand, loaded]
  · simp only [stepOn_recordingBus_staAbs log fetched, except_bind_eq_ok, Bus.readOrFault_eq_ok,
      Bus.writeOrFault_eq_ok, Prod.exists] at completed
    obtain ⟨lo, b1, low, hi, b2, high, b3, stored, ⟨⟩⟩ := completed
    refine ⟨by simp [stepOn_staAbs fetched, low, high, stored],
      [.read e.cpu.pc, .read (e.cpu.pc + 1#16), .read (e.cpu.pc + 2#16), .write (eaAbsolute lo hi) e.cpu.a], ?_⟩
    simp [Access.kind, low, high, stored]
  · simp only [stepOn_recordingBus_incZpx log fetched, except_bind_eq_ok, Bus.readOrFault_eq_ok,
      Bus.writeOrFault_eq_ok, Prod.exists] at completed
    obtain ⟨base8, b1, operand, v, b2, loaded, b3, stored, ⟨⟩⟩ := completed
    refine ⟨by simp [stepOn_incZpx fetched, operand, loaded, stored],
      [.read e.cpu.pc, .read (e.cpu.pc + 1#16), .read (eaZeroPageX base8 e.cpu.x),
        .write (eaZeroPageX base8 e.cpu.x) (v + 1#8)], ?_⟩
    simp [Access.kind, operand, loaded, stored]
  · rw [stepOn_recordingBus_unknown log unknown fetched] at completed
    cases completed
    refine ⟨stepOn_unknown unknown fetched, [.read e.cpu.pc], ?_⟩
    simp [Access.kind, ne_of_unknown unknown]

end Sys2Proof.Machine

/-! # The encoding family (30_encoding.md)

Two facts tie the decoder to the encoder: a byte source that serves an instruction's bytes is read as that instruction,
and what is read from any source encodes as the bytes that were asked for. The round trips over byte lists follow, and
from them R51's lines and the placement of its programs. -/

namespace Sys2Proof

/-! ## The encoder's bytes -/

/-- Every well-formed instruction begins with its opcode byte and is as long as that opcode's format (R43). -/
theorem encodedLength {i : Instr} (wf : i.wf = true) :
    (encode i).head? = some i.opcode ∧ (encode i).length = lengthOf i.opcode := by
  cases i with
  | nop => exact Laws.EncodedLength.nop wf
  | ldaImm imm8 => exact Laws.EncodedLength.ldaImm imm8 wf
  | ldaZp zp8 => exact Laws.EncodedLength.ldaZp zp8 wf
  | staAbs abs16 => exact Laws.EncodedLength.staAbs abs16 wf
  | incZpx base8 => exact Laws.EncodedLength.incZpx base8 wf
  | unknown op => exact Laws.EncodedLength.unknown op wf

theorem encode_eq_opcode_cons {i : Instr} (wf : i.wf = true) : ∃ operands, encode i = i.opcode :: operands :=
  List.head?_eq_some_iff.mp (encodedLength wf).1

/-! ## The decoder over a byte source -/

/-- A source that serves the bytes of a well-formed instruction is decoded as it: no other byte is asked for. -/
theorem decodeFrom_of_serves_encode {i : Instr} (wf : i.wf = true) {f : Nat → Byte}
    (serves : ∀ k (h : k < (encode i).length), f k = (encode i)[k]) : decodeFrom f = i := by
  have served : (List.range (encode i).length).map f = encode i :=
    List.ext_getElem (by simp) fun k _ h => by simpa using serves k h
  cases i with
  | nop =>
    have op : f 0 = 0x00#8 := by simpa [encode] using served
    simp [decodeFrom, op]
  | ldaImm imm8 =>
    have bytes : f 0 = 0x01#8 ∧ f 1 = imm8 := by simpa [encode, List.range_succ] using served
    simp [decodeFrom, bytes]
  | ldaZp zp8 =>
    have bytes : f 0 = 0x02#8 ∧ f 1 = zp8 := by simpa [encode, List.range_succ] using served
    simp [decodeFrom, bytes]
  | staAbs abs16 =>
    have bytes : f 0 = 0x03#8 ∧ f 1 = lowByte abs16 ∧ f 2 = highByte abs16 := by
      simpa [encode, List.range_succ] using served
    simp [decodeFrom, bytes]
  | incZpx base8 =>
    have bytes : f 0 = 0x04#8 ∧ f 1 = base8 := by simpa [encode, List.range_succ] using served
    simp [decodeFrom, bytes]
  | unknown op =>
    have absent : table op = none := table_unknown (by simpa [Instr.wf] using wf)
    have served : f 0 = op := by simpa [encode] using served
    simp [decodeFrom, served, absent]

/-- What the decoder reads encodes as the bytes it was served, as many as the opcode's format has (R43, R47). -/
theorem encode_decodeFrom (f : Nat → Byte) :
    encode (decodeFrom f) = (List.range (lengthOf (f 0))).map f := by
  rcases decodeFrom_cases f with ⟨op, h⟩ | ⟨op, h⟩ | ⟨op, h⟩ | ⟨op, h⟩ | ⟨op, h⟩ | ⟨op, h⟩
  · simp [h, op, encode, lengthOf]
  · simp [h, op, encode, lengthOf, List.range_succ]
  · simp [h, op, encode, lengthOf, List.range_succ]
  · simp [h, op, encode, lengthOf, List.range_succ]
  · simp [h, op, encode, lengthOf, List.range_succ]
  · simp [h, encode, lengthOf, table_unknown op]

/-- Sources that agree on the bytes of the instruction are decoded alike. -/
theorem decodeFrom_congr {f g : Nat → Byte} (agree : ∀ k < lengthOf (f 0), f k = g k) :
    decodeFrom f = decodeFrom g := by
  refine (decodeFrom_of_serves_encode (decodeFrom_wf f) fun k h => ?_).symm
  simp only [encode_decodeFrom, List.length_map, List.length_range, List.getElem_map, List.getElem_range] at h ⊢
  exact (agree k h).symm

/-- The decoder falls back exactly on the opcodes the table does not hold (R48). -/
theorem decodeFrom_eq_unknown_iff (f : Nat → Byte) : 5 ≤ (f 0).toNat ↔ decodeFrom f = .unknown (f 0) := by
  constructor
  · intro unknown
    simp [decodeFrom, table_unknown unknown]
  · intro fallback
    simpa [fallback, Instr.wf] using decodeFrom_wf f

/-! ## The decoder over a byte list -/

/-- A list decodes exactly when it holds an opcode and as many bytes as that opcode's format; it is split there. -/
theorem decode_eq_ok_iff {bytes rest : List Byte} {i : Instr} :
    decode bytes = .ok (i, rest) ↔ ∃ op tail, bytes = op :: tail ∧ lengthOf op ≤ bytes.length ∧
      decodeFrom (bytes.getD · 0) = i ∧ bytes.drop (lengthOf op) = rest := by
  cases bytes with
  | nil => simp [decode]
  | cons op tail =>
    by_cases short : tail.length + 1 < lengthOf op
    · simp [decode, short]
    · simp [decode, short, Nat.le_of_not_lt short]

/-- Settles O4: the list serves the instruction's bytes, and the instruction ends where they do. -/
theorem decodeOfEncode : Obligations.DecodeOfEncode := by
  intro i rest wf
  obtain ⟨operands, bytes⟩ := encode_eq_opcode_cons wf
  have length : (encode i).length = lengthOf i.opcode := (encodedLength wf).2
  refine decode_eq_ok_iff.mpr ⟨i.opcode, operands ++ rest, by rw [bytes, List.cons_append], ?_, ?_, ?_⟩
  · simp [← length]
  · refine decodeFrom_of_serves_encode wf fun k h => ?_
    rw [List.getD_append _ _ _ _ h, List.getD_eq_getElem _ _ h]
  · rw [← length, List.drop_left]

/-- Settles O5: the decoder read the first bytes of the list, and they are the instruction's encoding. -/
theorem encodeOfDecode : Obligations.EncodeOfDecode := by
  intro bytes i rest decoded
  obtain ⟨op, tail, cons, fits, rfl, rfl⟩ := decode_eq_ok_iff.mp decoded
  have opcode : bytes.getD 0 0 = op := by rw [cons, List.getD_cons_zero]
  have front : encode (decodeFrom (bytes.getD · 0)) = bytes.take (lengthOf op) := by
    rw [encode_decodeFrom, opcode]
    refine List.ext_getElem (by simpa using fits) fun k h _ => ?_
    have inside : k < bytes.length := by simp at h; omega
    simp [inside]
  exact ⟨decodeFrom_wf _, by rw [front, List.take_append_drop]⟩

/-- Settles O3: the encoding is the bytes read, so its length is the format's and no other byte matters. -/
theorem opcodeAloneSelectsInstruction : Obligations.OpcodeAloneSelectsInstruction := fun f _ =>
  ⟨decodeFrom_opcode f, by simp [encode_decodeFrom], decodeFrom_eq_unknown_iff f, decodeFrom_congr⟩

/-- Settles O1: six of the words are encodings with what follows them; the seventh ends inside its operand. -/
theorem specWordsDecode : Obligations.SpecWordsDecode :=
  ⟨decodeOfEncode .nop [] rfl, decodeOfEncode (.ldaImm 0x42#8) [] rfl, decodeOfEncode (.ldaZp 0x80#8) [] rfl,
    decodeOfEncode (.staAbs 0x1234#16) [] rfl, decodeOfEncode (.incZpx 0x10#8) [0x00#8] rfl,
    decodeOfEncode (.unknown 0xA9#8) [0x42#8] rfl, rfl⟩

/-- Settles O2: the five rows as they stand, and no entry from 0x05 up. -/
theorem dispatchTableHasFiveEntries : Obligations.DispatchTableHasFiveEntries :=
  ⟨⟨table_nop, rfl⟩, ⟨table_ldaImm, rfl⟩, ⟨table_ldaZp, rfl⟩, ⟨table_staAbs, rfl⟩, ⟨table_incZpx, rfl⟩,
    fun _ => table_unknown⟩

end Sys2Proof

namespace Sys2Proof.Machine

/-! ## Lines and the instructions they stand for (R51, R52) -/

theorem AsmLine.bytes_of_inRange {l : AsmLine} (h : l.inRange = true) : l.bytes = some l.rawBytes := by
  simp [AsmLine.bytes, h]

/-- A line is refused exactly when its operand is out of range. -/
theorem AsmLine.bytes_eq_none_iff {l : AsmLine} : l.bytes = none ↔ l.inRange = false := by
  simp [AsmLine.bytes]

/-- An in-range line that stands for an instruction gives bytes that decode to it and leave nothing. -/
theorem AsmLine.bytes_decode {l : AsmLine} {i : Instr} (inRange : l.inRange = true) (raw : l.rawBytes = encode i)
    (wf : i.wf = true) : ∃ bs, l.bytes = some bs ∧ decode bs = .ok (i, []) :=
  ⟨encode i, raw ▸ l.bytes_of_inRange inRange, by simpa using decodeOfEncode i [] wf⟩

/-- Settles O43: in range a line's bytes are its instruction's encoding, which decodes to it; else it is refused. -/
theorem notationLinesAreSingleInstructions : Obligations.NotationLinesAreSingleInstructions := by
  refine ⟨AsmLine.bytes_decode rfl rfl rfl, fun n large => ?_, fun n large => ?_, fun n small => ?_, fun n small => ?_⟩
  · simp [AsmLine.bytes_eq_none_iff, AsmLine.inRange, large]
  · simp [AsmLine.bytes_eq_none_iff, AsmLine.inRange, large]
  · have inRange : decide (n < 256) = true := decide_eq_true small
    exact ⟨BitVec.ofNat 8 n, by simpa using small, AsmLine.bytes_decode inRange rfl rfl,
      AsmLine.bytes_decode inRange rfl rfl, AsmLine.bytes_decode inRange rfl rfl, AsmLine.bytes_of_inRange inRange⟩
  · have inRange : decide (n < 65536) = true := decide_eq_true small
    have operand : (BitVec.ofNat 16 n).toNat = n := by simpa using small
    exact ⟨AsmLine.bytes_of_inRange inRange, fun _ => operand, BitVec.ofNat 16 n, operand,
      AsmLine.bytes_decode inRange rfl rfl⟩

/-! ## Programs and their placement (R51, R98) -/

/-- A line that is no `.org` moves the place past its bytes. -/
theorem AsmLine.nextPlace_of_not_org {l : AsmLine} (h : ∀ x, l ≠ .org x) (p : Addr) :
    l.nextPlace p = p + BitVec.ofNat 16 l.rawBytes.length := by
  cases l with
  | org a => exact absurd rfl (h a)
  | _ => rfl

theorem assemble_cons_of_bytes {l : AsmLine} {bs : List Byte} (h : l.bytes = some bs) (m : Memory) (p : Addr)
    (rest : List AsmLine) : assemble m p (l :: rest) = assemble (m.place p bs) (l.nextPlace p) rest := by
  simp [assemble, h]

theorem assemble_cons_of_refused {l : AsmLine} (h : l.bytes = none) (m : Memory) (p : Addr) (rest : List AsmLine) :
    assemble m p (l :: rest) = none := by
  simp [assemble, h]

/-- A program is refused exactly when one of its lines is. -/
theorem assemble_eq_none_iff (m : Memory) (p : Addr) (lines : List AsmLine) :
    assemble m p lines = none ↔ ∃ l ∈ lines, l.bytes = none := by
  induction lines generalizing m p with
  | nil => simp [assemble]
  | cons l rest ih =>
    cases given : l.bytes with
    | none => simp [assemble_cons_of_refused given, given]
    | some bs => simp [assemble_cons_of_bytes given, given, ih]

/-- A program goes on in the memory and at the place its first lines leave. -/
theorem assemble_append {m m1 : Memory} {p : Addr} {before : List AsmLine} (after : List AsmLine)
    (h : assemble m p before = some m1) :
    assemble m p (before ++ after) = assemble m1 (before.foldl (fun q l => l.nextPlace q) p) after := by
  induction before generalizing m p with
  | nil =>
    cases h
    rfl
  | cons l rest ih =>
    cases given : l.bytes with
    | none => simp [assemble_cons_of_refused given] at h
    | some bs =>
      rw [assemble_cons_of_bytes given] at h
      rw [List.cons_append, assemble_cons_of_bytes given]
      exact ih h

/-- Bytes placed one list after the other are placed as one list. -/
theorem Memory.place_append (m : Memory) (a : Addr) (bs cs : List Byte) :
    m.place a (bs ++ cs) = (m.place a bs).place (a + BitVec.ofNat 16 bs.length) cs := by
  induction bs generalizing m a with
  | nil => simp [Memory.place]
  | cons b rest ih =>
    rw [List.cons_append, List.length_cons, Nat.add_comm, BitVec.ofNat_add, ← BitVec.add_assoc]
    exact ih (m.write a b) (a + 1#16)

/-- Lines in range and without `.org` are placed as the one list of their bytes. -/
theorem assemble_eq_place (m : Memory) (p : Addr) {code : List AsmLine}
    (plain : ∀ l ∈ code, l.inRange = true ∧ ∀ x, l ≠ .org x) :
    assemble m p code = some (m.place p (code.flatMap AsmLine.rawBytes)) := by
  induction code generalizing m p with
  | nil => rfl
  | cons l rest ih =>
    obtain ⟨⟨inRange, notOrg⟩, plain⟩ := List.forall_mem_cons.mp plain
    rw [assemble_cons_of_bytes (l.bytes_of_inRange inRange), AsmLine.nextPlace_of_not_org notOrg, ih _ _ plain,
      List.flatMap_cons, Memory.place_append]

/-- Settles O45: after `.org` the program is one placement of bytes, which are read back and leave the rest alone. -/
theorem programLinesArePlacedInOrder : Obligations.ProgramLinesArePlacedInOrder := by
  refine ⟨assemble_eq_none_iff, fun _ _ _ _ after h => assemble_append after h, fun m p a code small plain fits => ?_⟩
  have org : (AsmLine.org a).bytes = some [] := AsmLine.bytes_of_inRange (decide_eq_true small)
  refine ⟨m.place (BitVec.ofNat 16 a) (code.flatMap AsmLine.rawBytes), ?_, fun k h => ?_, fun adr outside => ?_⟩
  · exact (assemble_cons_of_bytes org m p code).trans (assemble_eq_place m _ plain)
  · rw [BitVec.ofNat_add]
    exact placedBytesAreReadBack m _ _ fits k h
  · simp only [BitVec.ofNat_add] at outside
    exact m.read_place_outside _ adr _ outside

end Sys2Proof.Machine

/-! # The step engine family (40_step_engine.md)

The runs of two machines that agree on what a Step reads are compared first, operation by operation; then the machine's
Step and the engine's on any bus, opcode by opcode. -/

namespace Sys2Proof.Machine

/-! ## Two machines that agree on what a Step reads (R63) -/

/-- Agreeing machines fetch the same instruction: only PC and the bytes of the bus are read for it. -/
theorem SameInputs.fetch_eq {s s' : State} (h : SameInputs s s') : s.fetch = s'.fetch := by
  obtain ⟨-, -, pc, bytes⟩ := h
  have served : s.instrByte = s'.instrByte := funext fun k => by simp [State.instrByte, pc, bytes]
  simp only [State.fetch, served]

/-- `s` has come to `t` as `s'` has come to `t'`: the ends agree on what a Step reads, and the same cycles were added
and the same events appended on both sides. -/
structure RanAlike (s s' t t' : State) : Prop where
  inputs : SameInputs t t'
  cycles : t.cpu.cycles - s.cpu.cycles = t'.cpu.cycles - s'.cpu.cycles
  events : ∃ events, t.diag = s.diag ++ events ∧ t'.diag = s'.diag ++ events

namespace RanAlike

variable {s s' t t' u u' : State}

theorem refl (h : SameInputs s s') : RanAlike s s' s s' := ⟨h, by simp, [], by simp⟩

theorem trans (first : RanAlike s s' t t') (second : RanAlike t t' u u') : RanAlike s s' u u' := by
  obtain ⟨-, cycles₁, events₁, diag₁, diag₁'⟩ := first
  obtain ⟨inputs, cycles₂, events₂, diag₂, diag₂'⟩ := second
  refine ⟨inputs, ?_, events₁ ++ events₂, by simp [diag₂, diag₁], by simp [diag₂', diag₁']⟩
  rw [← sub_add_sub_cancel, cycles₂, cycles₁, sub_add_sub_cancel]

theorem setA (h : SameInputs s s') (v : Byte) : RanAlike s s' (s.setA v) (s'.setA v) := by
  obtain ⟨-, x, pc, bytes⟩ := h
  exact ⟨⟨rfl, x, pc, bytes⟩, by simp, [], by simp⟩

theorem writeByte (h : SameInputs s s') (a : Addr) (v : Byte) : RanAlike s s' (s.writeByte a v) (s'.writeByte a v) := by
  obtain ⟨acc, x, pc, bytes⟩ := h
  exact ⟨⟨acc, x, pc, by simp [Memory.read_write, bytes]⟩, by simp, [], by simp⟩

theorem complete (h : SameInputs s s') (m : Mnemonic) : RanAlike s s' (s.complete m) (s'.complete m) := by
  obtain ⟨acc, x, pc, bytes⟩ := h
  exact ⟨⟨acc, x, by simp [pc], bytes⟩, by simp, [], by simp⟩

theorem unknownOpcode (h : SameInputs s s') (op : Byte) :
    RanAlike s s' (s.unknownOpcode op) (s'.unknownOpcode op) := by
  obtain ⟨acc, x, pc, bytes⟩ := h
  exact ⟨⟨acc, x, by simp [pc], bytes⟩, by simp, [.unknownOpcode op s.cpu.pc], by simp [pc]⟩

end RanAlike

/-- Every meaning runs alike from agreeing machines: what it writes is made of what they agree on. -/
theorem exec_ranAlike (i : Instr) {s s' : State} (h : SameInputs s s') :
    ∃ t t', exec i s = .next t ∧ exec i s' = .next t' ∧ RanAlike s s' t t' := by
  have ⟨acc, x, _, bytes⟩ := h
  cases i with
  | nop => exact ⟨_, _, exec_nop s, exec_nop s', .complete h .nop⟩
  | ldaImm imm8 =>
    have loaded := RanAlike.setA h imm8
    exact ⟨_, _, exec_ldaImm imm8 s, exec_ldaImm imm8 s', loaded.trans (.complete loaded.inputs .ldaImm)⟩
  | ldaZp zp8 =>
    have loaded := RanAlike.setA h (s.mem.read (zext16 zp8))
    refine ⟨_, _, exec_ldaZp zp8 s, exec_ldaZp zp8 s', ?_⟩
    rw [← bytes]
    exact loaded.trans (.complete loaded.inputs .ldaZp)
  | staAbs abs16 =>
    have stored := RanAlike.writeByte h abs16 s.cpu.a
    refine ⟨_, _, exec_staAbs abs16 s, exec_staAbs abs16 s', ?_⟩
    rw [← acc]
    exact stored.trans (.complete stored.inputs .staAbs)
  | incZpx base8 =>
    have stored := RanAlike.writeByte h (zext16 (base8 + s.cpu.x)) (s.mem.read (zext16 (base8 + s.cpu.x)) + 1#8)
    refine ⟨_, _, exec_incZpx base8 s, exec_incZpx base8 s', ?_⟩
    rw [← x, ← bytes]
    exact stored.trans (.complete stored.inputs .incZpx)
  | unknown op => exact ⟨_, _, exec_unknown op s, exec_unknown op s', .unknownOpcode h op⟩

/-- Agreeing machines take their Steps alike: both run the same instruction. -/
theorem step_ranAlike {s s' : State} (h : SameInputs s s') :
    ∃ t t', step s = .next t ∧ step s' = .next t' ∧ RanAlike s s' t t' := by
  rw [step, step, ← h.fetch_eq]
  exact exec_ranAlike s.fetch h

/-- Agreeing machines run alike for any number of Steps: each is taken alike and leaves them in agreement. -/
theorem run_ranAlike (k : Nat) {s s' : State} (h : SameInputs s s') :
    ∃ t t', core.run k s = .next t ∧ core.run k s' = .next t' ∧ RanAlike s s' t t' := by
  induction k generalizing s s' with
  | zero => exact ⟨s, s', core_run_zero s, core_run_zero s', .refl h⟩
  | succ k ih =>
    obtain ⟨t, t', stepped, stepped', first⟩ := step_ranAlike h
    obtain ⟨u, u', ran, ran', others⟩ := ih first.inputs
    exact ⟨u, u', (core_run_succ k stepped).trans ran, (core_run_succ k stepped').trans ran', first.trans others⟩

/-- Settles O22: `run_ranAlike`, with what running alike means taken apart. -/
theorem runsDependOnInputsAlone : Obligations.RunsDependOnInputsAlone := by
  intro k s s' h
  obtain ⟨t, t', ran, ran', inputs, cycles, events⟩ := run_ranAlike k h
  exact ⟨t, t', ran, ran', inputs, cycles, events⟩

/-! ## The machine's Step and the engine's on RAM64K (R54) -/

/-- Settles O33: over the recording bus the engine's Step ends as the machine's (`stepMakesTheListedAccesses`), and
recording changes nothing else (`accessKindsOnAnyBus`). -/
theorem stepIsTheSpecStepOnRam : Obligations.StepIsTheSpecStepOnRam := by
  intro s
  obtain ⟨t, stepped, recorded⟩ := stepMakesTheListedAccesses s []
  obtain ⟨unrecorded, -⟩ := accessKindsOnAnyBus Memory ram64k s.toEngine [] _ s.mem _ (ram64k_fetch rfl) recorded
  exact ⟨t.toEngine, unrecorded, stepped⟩

/-! ## The next PC, and runs of any length (R62, R64, R65) -/

/-- A Step moves PC by the length that the opcode at PC fixes. -/
theorem step_pc {s t : State} (h : step s = .next t) :
    t.cpu.pc = s.cpu.pc + BitVec.ofNat 16 (lengthOf (s.mem.read s.cpu.pc)) := by
  rcases step_next_cases h with ⟨op, rfl⟩ | ⟨op, rfl⟩ | ⟨op, rfl⟩ | ⟨op, rfl⟩ | ⟨op, rfl⟩ | ⟨op, rfl⟩
  case inr.inr.inr.inr.inr => simp [lengthOf, table_unknown op]
  all_goals simp [lengthOf, op]

/-- Settles O16: `step_pc`, with the length of each opcode read off the table. -/
theorem nextPcIsFetchAddressPlusLength : Obligations.NextPcIsFetchAddressPlusLength := by
  intro s
  obtain ⟨t, stepped⟩ := step_completes s
  obtain ⟨x_kept, -, -, -⟩ := step_keeps_x_y_sp_flags stepped
  refine ⟨t, stepped, x_kept, ?_, ?_, fun op => ?_⟩
  · rintro (op | unknown)
    · simp [step_pc stepped, lengthOf, op]
    · simp [step_pc stepped, lengthOf, table_unknown unknown]
  · rintro (op | op | op) <;> simp [step_pc stepped, lengthOf, op]
  · simp [step_pc stepped, lengthOf, op]

/-- Settles O19, by induction on the number of Steps: each completes. -/
theorem everyRunCompletes : Obligations.EveryRunCompletes := by
  intro s k
  induction k generalizing s with
  | zero => exact ⟨s, core_run_zero s⟩
  | succ k ih =>
    obtain ⟨t, stepped⟩ := step_completes s
    obtain ⟨u, ran⟩ := ih t
    exact ⟨u, (core_run_succ k stepped).trans ran⟩

/-! ## The execute phase and the Step on any bus (R58 to R62, R80) -/

/-- Settles O40: with the accesses of each action served, the engine it leaves is written out. -/
theorem executePhaseWritesOnlyWhatItsRuleNames : Obligations.ExecutePhaseWritesOnlyWhatItsRuleNames := by
  intro β B act ea e e' completed
  cases act with
  | skip =>
    cases completed
    simp
  | loadA =>
    simp only [execute_loadA_eq_bind, except_bind_eq_ok, Prod.exists] at completed
    obtain ⟨v, e1, read, ⟨⟩⟩ := completed
    obtain ⟨b, answered, rfl⟩ := Engine.memRead_ok read
    simp [answered]
  | storeA =>
    obtain ⟨b, accepted, rfl⟩ := Engine.memWrite_ok completed
    simp [accepted]
  | increment =>
    simp only [execute_increment_eq_bind, except_bind_eq_ok, Prod.exists] at completed
    obtain ⟨v, e1, read, written⟩ := completed
    obtain ⟨b, answered, rfl⟩ := Engine.memRead_ok read
    obtain ⟨b', accepted, rfl⟩ := Engine.memWrite_ok written
    simp [answered, accepted]

/-- Settles O44: with the accesses of each opcode served, the engine its Step leaves is written out. -/
theorem stepOnAnyBusWritesItsRegisters : Obligations.StepOnAnyBusWritesItsRegisters := by
  intro β B e e' op b fetched completed
  rcases opcode_cases op with rfl | rfl | rfl | rfl | rfl | unknown
  · rw [stepOn_nop fetched] at completed
    cases completed
    exact ⟨rfl, rfl⟩
  · simp only [stepOn_ldaImm fetched, except_bind_eq_ok, Prod.exists] at completed
    obtain ⟨v, b1, -, ⟨⟩⟩ := completed
    exact ⟨rfl, rfl⟩
  · simp only [stepOn_ldaZp fetched, except_bind_eq_ok, Prod.exists] at completed
    obtain ⟨z, b1, -, v, b2, -, ⟨⟩⟩ := completed
    exact ⟨rfl, rfl⟩
  · simp only [stepOn_staAbs fetched, except_bind_eq_ok, Prod.exists] at completed
    obtain ⟨lo, b1, -, hi, b2, -, b3, -, ⟨⟩⟩ := completed
    exact ⟨rfl, rfl⟩
  · simp only [stepOn_incZpx fetched, except_bind_eq_ok, Prod.exists] at completed
    obtain ⟨base8, b1, -, v, b2, -, b3, -, ⟨⟩⟩ := completed
    exact ⟨rfl, rfl⟩
  · rw [stepOn_unknown unknown fetched] at completed
    cases completed
    simp [ne_of_unknown unknown, unknown, Cpu.advancePc, Cpu.charge, unknownOpcodeCycles]

/-! ## A Step runs the instruction at PC (R54, R57 to R59) -/

/-- Settles O6: the fetch decodes the bytes from PC on, and what serves an instruction's bytes decodes as it. -/
theorem stepRunsTheInstructionAtPc : Obligations.StepRunsTheInstructionAtPc := by
  intro s i wf standing
  have fetched : s.fetch = i := decodeFrom_of_serves_encode wf standing
  exact ⟨fetched, by rw [step, fetched]⟩

theorem fetch_of_unknown {s : State} (unknown : 5 ≤ (s.mem.read s.cpu.pc).toNat) :
    s.fetch = .unknown (s.mem.read s.cpu.pc) := by
  simp [State.fetch, decodeFrom, table_unknown unknown]

/-- Settles O13: the fallback's state is written out, and an opcode of 0x05 or above is fetched as unknown. -/
theorem unknownOpcodeFallsBack : Obligations.UnknownOpcodeFallsBack := by
  intro s op
  refine ⟨exec_unknown op s, ?_⟩
  rintro unknown rfl
  rw [step, fetch_of_unknown unknown]

end Sys2Proof.Machine

/-! # The addressing modes family (41_addressing_modes.md)

First what a resolver that completes leaves on any bus; then the address each mode gives on RAM64K. -/

namespace Sys2Proof.Machine

/-! ## The resolver on any bus (R24, R66, R73) -/

section
variable {β : Type} {B : Bus β}

theorem resolve_none (e : Engine β) : resolve B .none e = .ok (eaNone, e) := rfl

theorem resolve_immediate (e : Engine β) :
    resolve B .immediate e = .ok (eaImmediate e.cpu.pc, e.advance 1) := rfl

theorem resolve_absoluteX_eq_bind (e : Engine β) :
    resolve B .absoluteX e = do
      let (lo, hi, e1) ← e.operandPair B
      return (eaAbsoluteX lo hi e.cpu.x, e1) := by
  unfold resolve
  cases e.operandPair B <;> rfl

/-- A resolver changes the bus, and moves PC by the operand bytes of its mode; nothing else. -/
theorem resolve_engine_of_ok {m : Mode} {e e' : Engine β} {ea : Addr} (h : resolve B m e = .ok (ea, e')) :
    ∃ b, e' = { e with cpu := e.cpu.advancePc m.operandBytes, bus := b } := by
  cases m with
  | none =>
    rw [resolve_none] at h
    cases h
    exact ⟨e.bus, by simp [Cpu.advancePc, Mode.operandBytes]⟩
  | immediate =>
    rw [resolve_immediate] at h
    cases h
    exact ⟨e.bus, rfl⟩
  | zeroPage =>
    simp only [resolve_zeroPage_eq_bind, except_bind_eq_ok, Prod.exists] at h
    obtain ⟨z, e1, operand, ⟨⟩⟩ := h
    obtain ⟨b, -, rfl⟩ := Engine.operandByte_ok operand
    exact ⟨b, rfl⟩
  | absolute =>
    simp only [resolve_absolute_eq_bind, except_bind_eq_ok, Prod.exists] at h
    obtain ⟨lo, hi, e1, operand, ⟨⟩⟩ := h
    obtain ⟨-, b, -, -, rfl⟩ := Engine.operandPair_ok operand
    exact ⟨b, rfl⟩
  | zeroPageX =>
    simp only [resolve_zeroPageX_eq_bind, except_bind_eq_ok, Prod.exists] at h
    obtain ⟨base8, e1, operand, ⟨⟩⟩ := h
    obtain ⟨b, -, rfl⟩ := Engine.operandByte_ok operand
    exact ⟨b, rfl⟩
  | absoluteX =>
    simp only [resolve_absoluteX_eq_bind, except_bind_eq_ok, Prod.exists] at h
    obtain ⟨lo, hi, e1, operand, ⟨⟩⟩ := h
    obtain ⟨-, b, -, -, rfl⟩ := Engine.operandPair_ok operand
    exact ⟨b, rfl⟩

/-- The zero-page modes give an address of the zero page: a byte, zero-extended (R24). -/
theorem resolve_zero_page_lt {m : Mode} {e e' : Engine β} {ea : Addr} (h : resolve B m e = .ok (ea, e'))
    (zero_page : m = .zeroPage ∨ m = .zeroPageX) : ea.toNat < 256 := by
  rcases zero_page with rfl | rfl
  · simp only [resolve_zeroPage_eq_bind, except_bind_eq_ok, Prod.exists] at h
    obtain ⟨z, e1, -, ⟨⟩⟩ := h
    exact (toNat_eaZeroPage z).trans_lt z.isLt
  · simp only [resolve_zeroPageX_eq_bind, except_bind_eq_ok, Prod.exists] at h
    obtain ⟨base8, e1, -, ⟨⟩⟩ := h
    exact eaZeroPageX_lt base8 e.cpu.x

end

/-- Settles O39: the engine a resolver leaves is written out in `resolve_engine_of_ok`, the range of the zero-page
modes is `resolve_zero_page_lt`. -/
theorem resolverWritesPcOnly : Obligations.ResolverWritesPcOnly := by
  intro β B m e e' ea completed
  obtain ⟨b, rfl⟩ := resolve_engine_of_ok completed
  refine ⟨?_, rfl, resolve_zero_page_lt completed⟩
  cases m <;> rfl

/-! ## The effective addresses on RAM64K (R67 to R72) -/

@[simp] theorem Engine.operandByte_ram64k (e : Engine Memory) :
    e.operandByte ram64k = .ok (e.bus.read e.cpu.pc, e.advance 1) := rfl

@[simp] theorem Engine.operandPair_ram64k (e : Engine Memory) :
    e.operandPair ram64k = .ok (e.bus.read e.cpu.pc, e.bus.read (e.cpu.pc + 1#16), e.advance 2) := rfl

theorem resolve_zeroPage_ram64k (e : Engine Memory) :
    resolve ram64k .zeroPage e = .ok (eaZeroPage (e.bus.read e.cpu.pc), e.advance 1) := by
  simp [resolve_zeroPage_eq_bind]

theorem resolve_absolute_ram64k (e : Engine Memory) :
    resolve ram64k .absolute e =
      .ok (eaAbsolute (e.bus.read e.cpu.pc) (e.bus.read (e.cpu.pc + 1#16)), e.advance 2) := by
  simp [resolve_absolute_eq_bind]

theorem resolve_zeroPageX_ram64k (e : Engine Memory) :
    resolve ram64k .zeroPageX e = .ok (eaZeroPageX (e.bus.read e.cpu.pc) e.cpu.x, e.advance 1) := by
  simp [resolve_zeroPageX_eq_bind]

theorem resolve_absoluteX_ram64k (e : Engine Memory) :
    resolve ram64k .absoluteX e =
      .ok (eaAbsoluteX (e.bus.read e.cpu.pc) (e.bus.read (e.cpu.pc + 1#16)) e.cpu.x, e.advance 2) := by
  simp [resolve_absoluteX_eq_bind]

/-- Settles O38: each mode's equation on RAM64K, with its address as a number (Laws/Word.lean). -/
theorem resolverEffectiveAddresses : Obligations.ResolverEffectiveAddresses := by
  intro e
  refine ⟨resolve_none e, resolve_immediate e, ⟨_, resolve_zeroPage_ram64k e, toNat_eaZeroPage _⟩,
    ⟨_, resolve_absolute_ram64k e, ?_⟩, ⟨_, resolve_zeroPageX_ram64k e, toNat_eaZeroPageX _ _⟩,
    ⟨_, resolve_absoluteX_ram64k e, ?_⟩⟩
  · rw [toNat_eaAbsolute]
    omega
  · rw [toNat_eaAbsoluteX]
    omega

end Sys2Proof.Machine

/-! # The no-operation family (42_nop.md) -/

namespace Sys2Proof.Machine

theorem fetch_of_nop {s : State} (op : s.mem.read s.cpu.pc = 0x00#8) : s.fetch = .nop := by
  simp [State.fetch, decodeFrom, op]

/-- NOP's length and base cost, read off the table (R43, R45). -/
theorem State.complete_nop (s : State) :
    s.complete .nop =
      { s with cpu := { s.cpu with pc := s.cpu.pc + 1#16, cycles := s.cpu.cycles + 2#64 } } := rfl

/-- Settles O8: NOP only ends its instruction, and opcode 0x00 is fetched as NOP. -/
theorem nopChangesPcAndCyclesOnly : Obligations.NopChangesPcAndCyclesOnly := by
  intro s
  refine ⟨?_, fun op => ?_⟩
  · rw [exec_nop, State.complete_nop]
  · rw [step, fetch_of_nop op]

end Sys2Proof.Machine

/-! # The load and store family (43_load_store.md)

Each statement is the effective address as a number (Laws/Word.lean), the instruction's meaning (Laws/Step.lean) with
its length and base cost read off the table, and the instruction that the bytes at PC are fetched as. -/

namespace Sys2Proof.Machine

theorem fetch_of_staAbs {s : State} (op : s.mem.read s.cpu.pc = 0x03#8) :
    s.fetch = .staAbs (eaAbsolute (s.mem.read (s.cpu.pc + 1#16)) (s.mem.read (s.cpu.pc + 2#16))) := by
  simp [State.fetch, decodeFrom, op, eaAbsolute]

/-- Settles O11: what STA_ABS leaves in memory is a read after its one write, at that address and at any other. -/
theorem staAbsStoresAccumulator : Obligations.StaAbsStoresAccumulator := by
  intro s lo hi
  refine ⟨toNat_eaAbsolute lo hi, ⟨_, exec_staAbs _ s, rfl, rfl, ?stored, ?others_kept⟩, ?runs⟩
  case stored => simp
  case others_kept =>
    intro adr other
    simp [Memory.read_write_ne _ _ _ _ other]
  case runs =>
    rintro op rfl rfl
    rw [step, fetch_of_staAbs op]

/-- Settles O9: LDA_IMM's meaning written out, and opcode 0x01 is fetched with the byte after it. -/
theorem ldaImmLoadsItsOperand : Obligations.LdaImmLoadsItsOperand := by
  intro s imm8
  refine ⟨exec_ldaImm imm8 s, ?_⟩
  rintro op rfl
  rw [step, fetch_of_ldaImm op]

/-- Settles O10: LDA_ZP's meaning written out, and opcode 0x02 is fetched with the byte after it. -/
theorem ldaZpLoadsFromZeroPage : Obligations.LdaZpLoadsFromZeroPage := by
  intro s zp8
  refine ⟨toNat_eaZeroPage zp8, exec_ldaZp zp8 s, ?_⟩
  rintro op rfl
  rw [step, fetch_of_ldaZp op]

end Sys2Proof.Machine

/-! # The read-modify-write family (44_read_modify_write.md) -/

namespace Sys2Proof.Machine

theorem fetch_of_incZpx {s : State} (op : s.mem.read s.cpu.pc = 0x04#8) :
    s.fetch = .incZpx (s.mem.read (s.cpu.pc + 1#16)) := by
  simp [State.fetch, decodeFrom, op]

/-- Settles O12: INC_ZPX's one write is read back at its address and at any other, and the bytes at PC are fetched
as it. -/
theorem incZpxIncrementsOneByte : Obligations.IncZpxIncrementsOneByte := by
  intro s base8
  refine ⟨toNat_eaZeroPageX base8 s.cpu.x, ⟨_, exec_incZpx base8 s, rfl, rfl, ?incremented, ?others_kept⟩, ?runs⟩
  case incremented => simp [eaZeroPageX, Memory.read_write_self]
  case others_kept => exact fun adr other => Memory.read_write_ne _ _ adr _ other
  case runs =>
    rintro op rfl
    rw [step, fetch_of_incZpx op]

end Sys2Proof.Machine

/-! # The exceptions family (60_exceptions.md) -/

namespace Sys2Proof.Machine

/-- The diagnostic output after a Step, by the opcode at PC: the fallback alone appends to it (R80). -/
theorem step_diag {s t : State} (h : step s = .next t) :
    t.diag = if (s.mem.read s.cpu.pc).toNat < 5 then s.diag
      else s.diag ++ [.unknownOpcode (s.mem.read s.cpu.pc) s.cpu.pc] := by
  rcases step_next_cases h with ⟨op, rfl⟩ | ⟨op, rfl⟩ | ⟨op, rfl⟩ | ⟨op, rfl⟩ | ⟨op, rfl⟩ | ⟨unknown, rfl⟩
  case inr.inr.inr.inr.inr => rw [if_neg (Nat.not_lt.mpr unknown), State.unknownOpcode_diag]
  all_goals simp [op]

/-- Settles O18: a Step completes, and `step_diag` says what it leaves in the diagnostic output. -/
theorem oneDiagnosticPerUnknownOpcode : Obligations.OneDiagnosticPerUnknownOpcode := by
  intro s
  obtain ⟨t, stepped⟩ := step_completes s
  exact ⟨t, stepped, step_diag stepped⟩

end Sys2Proof.Machine

/-! # The reset and hazards family (70_reset_and_hazards.md)

What the next Step fetches after construction, after the host placed or wrote bytes, and after a Step that wrote the
next opcode; then the cycles a Step adds. -/

namespace Sys2Proof.Machine

/-! ## Construction (R95, R97) -/

/-- Settles O29: construction sets PC to zero, so byte k of the instruction at PC stands at address k. -/
theorem firstStepFetchesAtZero : Obligations.FirstStepFetchesAtZero := by
  intro mem0
  have from_zero : (State.construct mem0).instrByte = fun k => mem0.read (BitVec.ofNat 16 k) := by
    funext k
    simp [State.instrByte, Cpu.zero]
  exact ⟨State.construct_mem mem0, State.construct_diag mem0, by rw [step, State.fetch, from_zero]⟩

/-! ## A word stored at PC (R29, R98) -/

@[simp] theorem length_wordBytes (nbits w : Nat) : (wordBytes nbits w).length = 3 := rfl

/-- A table word is read from its three bytes, and the instruction's format ends within them. -/
theorem decodeTableWord_eq_some {nbits w : Nat} {i : Instr} (h : decodeTableWord nbits w = some i) :
    lengthOf ((wordBytes nbits w).getD 0 0) ≤ 3 ∧ decodeFrom ((wordBytes nbits w).getD · 0) = i := by
  unfold decodeTableWord at h
  split at h
  case h_1 rest decoded =>
    cases h
    obtain ⟨op, tail, bytes, fits, read, -⟩ := decode_eq_ok_iff.mp decoded
    have opcode : (wordBytes nbits w).getD 0 0 = op := by rw [bytes, List.getD_cons_zero]
    exact ⟨opcode ▸ fits, read⟩
  case h_2 => cases h

/-- The bytes placed at PC are the bytes of the instruction there. -/
theorem instrByte_placeAtPc (s : State) {bytes : List Byte} (fits : bytes.length ≤ 65536) {k : Nat}
    (h : k < bytes.length) : (s.placeAtPc bytes).instrByte k = bytes.getD k 0 := by
  rw [List.getD_eq_getElem _ _ h]
  exact placedBytesAreReadBack s.mem s.cpu.pc bytes fits k h

/-- A word stored at PC is fetched as the instruction it decodes to. -/
theorem fetch_withFetchWord {s : State} {nbits w : Nat} {i : Instr} (h : decodeTableWord nbits w = some i) :
    (s.withFetchWord nbits w).fetch = i := by
  obtain ⟨fits, read⟩ := decodeTableWord_eq_some h
  have served (k : Nat) (inside : k < 3) :
      (s.withFetchWord nbits w).instrByte k = (wordBytes nbits w).getD k 0 :=
    instrByte_placeAtPc s (by simp) inside
  rw [← read, State.fetch]
  refine (decodeFrom_congr fun k inside => ?_).symm
  exact (served k (inside.trans_le fits)).symm

/-- Settles O7: the word at PC is fetched as its instruction, and the three bytes placed are the only change. -/
theorem storedTableWordIsWhatRuns : Obligations.StoredTableWordIsWhatRuns := by
  intro s nbits w i decoded
  refine ⟨by rw [step, fetch_withFetchWord decoded], s.placeAtPc_cpu _, s.placeAtPc_diag _,
    fun adr not_first not_second not_third => ?_⟩
  refine Memory.read_place_outside s.mem s.cpu.pc adr _ fun k inside => ?_
  rw [length_wordBytes] at inside
  interval_cases k
  · simpa using not_first
  · exact not_second
  · exact not_third

/-! ## A byte of code written by a Step or by the host (R39, R99 to R101) -/

/-- Settles O21: the Step's one write is at the PC it leaves, and the next fetch reads it back. -/
theorem writeToNextOpcodeIsFetched : Obligations.WriteToNextOpcodeIsFetched := by
  intro s
  obtain ⟨t, stepped⟩ := step_completes s
  refine ⟨t, stepped, fun op at_next => ?_, fun op at_next => ?_⟩
  · rw [step, fetch_of_staAbs op, at_next, exec_staAbs] at stepped
    cases stepped
    simp
  · rw [step, fetch_of_incZpx op, exec_incZpx, ← eaZeroPageX, at_next] at stepped
    cases stepped
    simp

/-- Settles O42: the byte written is the opcode at PC; the Step on it is the fallback's or NOP's. -/
theorem hostWriteIsSeenByNextStep : Obligations.HostWriteIsSeenByNextStep := by
  intro s p op u
  have at_pc : u.mem.read u.cpu.pc = op := s.mem.read_write_self p op
  obtain ⟨t, stepped⟩ := step_completes u
  refine ⟨u.fetch_opcode.trans at_pc, fun unknown => ⟨t, stepped, ?_⟩, fun nop => ⟨t, stepped, ?_, ?_⟩⟩
  · rw [step_diag stepped, at_pc, if_neg (Nat.not_lt.mpr unknown)]
    rfl
  · rw [step_diag stepped, at_pc, nop]
    rfl
  · rw [step_pc stepped, at_pc, nop]
    rfl

/-! ## The cycles of a Step on any bus (R103, R104) -/

/-- R103's table: the entries' base costs, and the fallback's for every other opcode. -/
theorem opcodeCycles_eq (op : Byte) :
    opcodeCycles op =
      if op = 0x00#8 then 2
      else if op = 0x01#8 then 2
      else if op = 0x02#8 then 3
      else if op = 0x03#8 then 4
      else if op = 0x04#8 then 6
      else 2 := by
  rcases opcode_cases op with rfl | rfl | rfl | rfl | rfl | unknown
  case inr.inr.inr.inr.inr =>
    simp [opcodeCycles, table_unknown unknown, ne_of_unknown unknown, unknownOpcodeCycles]
  all_goals rfl

/-- A Step that completes adds its opcode's cycles, modulo 2^64 (D4). -/
theorem stepOn_cycles {β : Type} {B : Bus β} {e e' : Engine β} {op : Byte} {b : β}
    (fetched : B.read e.bus e.cpu.pc = some (op, b)) (completed : stepOn B e = .ok e') :
    e'.cpu.cycles = e.cpu.cycles + BitVec.ofNat 64 (opcodeCycles op) := by
  obtain ⟨registers, -⟩ := stepOnAnyBusWritesItsRegisters β B e e' op b fetched completed
  rw [registers, opcodeCycles_eq]
  rcases opcode_cases op with rfl | rfl | rfl | rfl | rfl | unknown
  case inr.inr.inr.inr.inr => simp [ne_of_unknown unknown]
  all_goals simp

/-- Where the count stays below 2^64, a Step that completes adds its opcode's cycles to it as a number. -/
theorem stepOn_cycles_toNat {β : Type} {B : Bus β} {e e' : Engine β} {op : Byte} {b : β}
    (room : e.cpu.cycles.toNat + 6 < 2 ^ 64) (fetched : B.read e.bus e.cpu.pc = some (op, b))
    (completed : stepOn B e = .ok e') : e'.cpu.cycles.toNat = e.cpu.cycles.toNat + opcodeCycles op := by
  have bounds := opcodeCycles_bounds op
  rw [stepOn_cycles fetched completed, BitVec.toNat_add, BitVec.toNat_ofNat]
  omega

/-- Settles O17: R103's table is `opcodeCycles`, which a Step adds on the machine and on any bus. -/
theorem cyclesAddedDependOnOpcodeAlone : Obligations.CyclesAddedDependOnOpcodeAlone := by
  refine ⟨fun s room => ?_, fun β B e e' op b room fetched completed => ?_⟩
  · obtain ⟨t, stepped⟩ := step_completes s
    rw [← opcodeCycles_eq]
    exact ⟨t, stepped, step_cycles_toNat stepped room⟩
  · rw [← opcodeCycles_eq]
    exact stepOn_cycles_toNat room fetched completed

end Sys2Proof.Machine
